-- ==== Sys2Proof/Word.lean ====
section
/-! DEFINITION. The bit-vector types the spec's registers and ports are made of (00_scope.md R11, R12). -/

namespace Sys2Proof

/-- One bit of the bit stream: the slicer's true is `1`, its false is `0` (R92, decision D22). -/
abbrev Bit := BitVec 1

/-- A byte: `u8` of R12. -/
abbrev Byte := BitVec 8

/-- A 16-bit word: `u16`, or `s16` where a rule reads it signed (R12). -/
abbrev Word := BitVec 16

end Sys2Proof
end

