-- ==== Sys2Proof/Config.lean ====
section
/-! DEFINITION. What is fixed for a run (00_scope.md R7, R9, R10; 41_bit_slicer.md R88; 92_eei_decisions.md, open parameters), and the one free value. -/

namespace Sys2Proof

/-- `DIV_MODE` of R88: how the threshold's quotient is rounded. -/
inductive DivMode where
  | towardZero
  | floor
  deriving DecidableEq, Repr

/-- The configuration of R16, with `DIV_MODE` of R88. Constant over a run: no instruction changes it (R171).
A configuration with `n < 2` can be written, and every instruction refuses it (R141, decision D19). -/
structure Config where
  /-- `N`, the oversampling ratio (R7). -/
  n : Nat
  /-- `VERBOSE` (R10). -/
  verbose : Bool
  /-- `CRC_SEED` (R9). -/
  crcSeed : Word
  /-- `DIV_MODE` (R88). -/
  divMode : DivMode
  deriving DecidableEq, Repr

/-- The configuration `State.reset` carries. DESIGN CHOICE (log 2): the host chooses `N` and `VERBOSE`, the spec gives
no default; unsafe if a claim rests on it. `CRC_SEED` and `DIV_MODE` are the spec's defaults (R9, R88). -/
def Config.default : Config :=
  { n := 2, verbose := true, crcSeed := 0x1D0F#16, divMode := .towardZero }

/-- FREE VALUE (log 5): what the payload buffer holds at an address nothing has written (10_state.md R30; U5 of
93_implementation_defined.md: "any value"). It has no body, so no proof can know it; the same address gives the same
value until it is written. Safe. -/
opaque Config.unwrittenByte (addr : Nat) : Byte

end Sys2Proof
end

