-- ==== Sys2Proof/Machine/State.lean ====
section
/-! DEFINITION. The state of the machine as plain data: the configuration, the registers of 10_state.md R15, the outputs
of the latest step (R31, R127), the results operations hand to their callers, and the inputs still to come (R17, R135). -/

namespace Sys2Proof.Machine

/-- The framer's state (R21, R98). -/
inductive FState where
  | searching
  | synced
  deriving DecidableEq, Repr

/-- The assembler's stored sub-states (R25, R112). ACCEPTED and REJECTED are outcomes, never stored. -/
inductive AState where
  | awaitLength
  | readPayload
  | readCrcHi
  | readCrcLo
  deriving DecidableEq, Repr

/-- The five events (R144). -/
inductive Event where
  | packet (len : Byte) (payload : List Byte)
  | sync (value : Word)
  | length (len : Byte)
  | oversize (len : Byte)
  | crcMismatch (received computed : Word)
  deriving DecidableEq, Repr

/-- The session-end code (R150). -/
inductive EndCode where
  | none
  | accepted
  | rejectedOversize
  | rejectedCrc
  deriving DecidableEq, Repr

/-- The error and status kinds of R140. -/
inductive ErrorKind where
  | frameSyncSearching
  | configurationError
  | oversizedLength
  | checksumMismatch
  deriving DecidableEq, Repr

/-- What the data ports carry in one step (R17): nothing, a sample, or a byte of the optional front end. The two are
never together (R17: "used instead of, never together with"), so the type holds one (log 7). -/
inductive DataPort where
  | quiet
  | sample (s : Word)
  | byte (b : Byte)
  deriving DecidableEq, Repr

/-- The input ports in one step: the reset pin and the data port (R17). R17's `Reset | Idle | Sample | Byte` is this
with `rst` given priority (R128); a sample presented together with `rst` is lost. -/
structure Input where
  rst : Bool
  port : DataPort
  deriving DecidableEq, Repr

/-- The payload buffer's written bytes (R30): addresses strictly rising, nothing listed for a byte no operation has
written. -/
abbrev Memory := List Host.Cell

/-- The machine's state. -/
structure State where
  /-- The configuration (R16): constant, no instruction changes it (log 1). -/
  cfg : Config
  /-- R20: the byte-pair latch of the front end. -/
  loByte : Byte
  /-- R20: the low byte of the next sample is held. -/
  haveLo : Bool
  /-- R18: the running average, signed. -/
  threshold : Word
  /-- R19: the decimation counter, `1 .. N`. -/
  decCnt : Nat
  /-- R21. -/
  fstate : FState
  /-- R22: newest bit in bit 0. -/
  syncReg : Word
  /-- R23. -/
  byteAcc : Byte
  /-- R24: bits still to shift in, `1 .. 8`. -/
  bitCnt : BitVec 4
  /-- R25. -/
  astate : AState
  /-- R26. -/
  length : Byte
  /-- R27: payload bytes stored so far, and the index of the next one. -/
  offset : Byte
  /-- R28. -/
  crcAcc : Word
  /-- R29. -/
  rxCrc : Word
  /-- R30: the payload buffer. -/
  buf : Memory
  /-- R127, R144: the events of the latest step, in order. -/
  events : List Event
  /-- R150: the session-end code of the latest step. -/
  endCode : EndCode
  /-- R31: the slicer tap of the latest step. -/
  bitTap : Option Bit
  /-- R91: `boundary`, what `DECIMATE` told its caller (the model's own field, log 8). -/
  boundary : Bool
  /-- R113: `ended`, what `BYTE` told its caller (the model's own field, log 8). -/
  ended : Bool
  /-- R80: the value `CRC_UPDATE` gave its caller (the model's own field, log 8). -/
  crcOut : Option Word
  /-- R17, R135: the inputs still to come, the next one first (the model's own field, log 6). -/
  inputs : List Input
  deriving DecidableEq, Repr

/-- Why the machine stops with a fault: there is no reason (R127: "no input faults"; R157: "Faults a model should give the
block: none"). Nobody can raise one. -/
inductive Fault where
  deriving DecidableEq, Repr

/-- Why the machine refuses. -/
inductive Refusal where
  /-- An instruction with no meaning yet. Raised by no arm: every instruction has its meaning. Safe. -/
  | notModelled (mnemonic : String)
  /-- `N < 2`: `step` has no meaning (R141, decision D19, U3). Raised by every instruction in a state whose
  configuration has `n < 2`. Safe: nothing is claimed of such a block (log 16). -/
  | oversamplingBelowTwo (n : Nat)
  /-- `ConfigurationError` (R141), raised by the host's start before any step when `cfg_ok` is false; the value is the
  rejected sample rate (R140). Safe: the block is never started (log 16). -/
  | configurationError (sampleRate : Nat)
  deriving DecidableEq, Repr

/-- The block right after reset with configuration `c`: the table of R37, nothing written in the buffer, no outputs, no
inputs waiting. -/
def State.resetWith (c : Config) : State :=
  { cfg := c
    loByte := 0x00#8, haveLo := false
    threshold := 0#16, decCnt := c.n
    fstate := .searching, syncReg := 0x0000#16, byteAcc := 0x00#8, bitCnt := 8#4
    astate := .awaitLength, length := 0#8, offset := 0#8, crcAcc := c.crcSeed, rxCrc := 0x0000#16
    buf := []
    events := [], endCode := .none, bitTap := none
    boundary := false, ended := false, crcOut := none
    inputs := [] }

/-- The machine right after reset (R37) with the configuration of log 2. -/
def State.reset : State := State.resetWith Config.default

end Sys2Proof.Machine
end

