-- ==== Sys2Proof/Machine/Operands.lean ====
section
/-! DEFINITION. The constants of 00_scope.md R6 and the assembly of operands of 30_encoding.md R64: how bits, bytes and
samples go together, and in which order bits leave a word. -/

namespace Sys2Proof.Machine

/-- `BIT_RATE` (R6), bits per second. -/
def bitRate : Nat := 2000
/-- `SYNC_WORD` (R6). -/
def syncWord : Word := 0x2DAA#16
/-- `SYNC_WORD_INV` (R6; conflict C2). -/
def syncWordInv : Word := 0xD255#16
/-- `CRC_POLY` (R6). -/
def crcPoly : Word := 0x1021#16
/-- `MAX_LEN` (R6): the largest legal payload length. -/
def maxLen : Nat := 254
/-- `BUF_CAP` (R6): addresses `0 .. 253`. -/
def bufCap : Nat := 254
/-- `AVG_WINDOW` (R6). -/
def avgWindow : Nat := 8
/-- `K = 8·N` (R7), the averaging weight. -/
def averagingWeight (c : Config) : Nat := avgWindow * c.n

/-- R64 (a), R46: the second stream byte is the high half. -/
def sampleOfBytes (hi lo : Byte) : Word := hi ++ lo

/-- R64 (c), R100: the newest bit in bit 0, bit 15 falls out. -/
def shiftIntoSync (reg : Word) (b : Bit) : Word := reg.extractLsb' 0 15 ++ b

/-- R64 (b), R104: the first bit of a byte ends up in bit 7. -/
def shiftIntoByte (acc : Byte) (b : Bit) : Byte := acc.extractLsb' 0 7 ++ b

/-- R64 (d): `CRC_HI ‖ CRC_LO`, the high half being the register's. -/
def checksumOfBytes (rxCrc : Word) (lo : Byte) : Word := rxCrc.extractLsb' 8 8 ++ lo

/-- R63, R117: the transform `0xFFFF − received`. -/
def complementChecksum (w : Word) : Word := 0xFFFF#16 - w

/-- The two sync patterns, exactly (R100, R101). -/
def isSyncWord (w : Word) : Bool := w == syncWord || w == syncWordInv

/-- The bits of a field in the order they arrive: most significant first (R47, R48). -/
def msbFirst {w : Nat} (v : BitVec w) : List Bit :=
  (List.range w).map fun i => v.extractLsb' (w - 1 - i) 1

/-- R58: the two stream bytes of a sample, low byte first. -/
def sampleBytes (s : Word) : Byte × Byte := (s.extractLsb' 0 8, s.extractLsb' 8 8)

/-- The encoding of `astate` (R25). -/
def AState.code : AState → BitVec 2
  | .awaitLength => 0b00#2
  | .readPayload => 0b01#2
  | .readCrcHi => 0b10#2
  | .readCrcLo => 0b11#2

/-- The sub-state an encoding of R25 stands for. -/
def AState.ofCode (c : BitVec 2) : AState :=
  if c = 0b00#2 then .awaitLength
  else if c = 0b01#2 then .readPayload
  else if c = 0b10#2 then .readCrcHi
  else .readCrcLo

end Sys2Proof.Machine
end

