-- ==== Sys2Proof/Machine/Ops.lean ====
section
/-! DEFINITION. The shared operations: the payload buffer, emitting events, beginning a step, and the one precondition
every instruction has. An operation is a total function of the state (44_pipeline_step.md R127: "no input faults"). -/

namespace Sys2Proof.Machine

/-- The answer of an instruction. -/
abbrev Answer := Host.Outcome State Fault Refusal

/-- The answer of an instruction that leaves `t`: with `N ≥ 2` it always completes (R127), and for `N < 2` the step has no
meaning and is refused (R141, decision D19). Every instruction ends in this check. -/
def configured (s t : State) : Answer :=
  if 2 ≤ s.cfg.n then .next t else .refused (.oversamplingBelowTwo s.cfg.n)

/-- A step begins with no events, `end_code = NONE`, no bit tap (R127 to R129), and no results handed on. -/
def beginStep (s : State) : State :=
  { s with events := [], endCode := .none, bitTap := none, boundary := false, ended := false, crcOut := none }

/-- The event a step may emit whatever `VERBOSE` is (R144). -/
def Event.isPacket : Event → Bool
  | .packet _ _ => true
  | .sync _ | .length _ | .oversize _ | .crcMismatch _ _ => false

/-- `emit E(args)` of R13 behind the gate of R147: with `VERBOSE = 0` only `PACKET` leaves the block. -/
def emit (e : Event) (s : State) : State :=
  if s.cfg.verbose || e.isPacket then { s with events := s.events ++ [e] } else s

/-! ### The payload buffer -/

/-- The byte written at an address, if one was. -/
def Memory.read? : Memory → Nat → Option Byte
  | [], _ => none
  | (a, v) :: rest, addr => if a = addr then some v else Memory.read? rest addr

/-- Writing keeps the addresses strictly rising. -/
def Memory.write : Memory → Nat → Byte → Memory
  | [], addr, v => [(addr, v)]
  | (a, w) :: rest, addr, v =>
    if addr < a then (addr, v) :: (a, w) :: rest
    else if addr = a then (addr, v) :: rest
    else (a, w) :: Memory.write rest addr v

/-- Every address of `m` is above `low`, and they strictly rise. -/
def Memory.risesAbove : Nat → Memory → Bool
  | _, [] => true
  | low, (a, _) :: rest => low < a && Memory.risesAbove a rest

/-- The canonical form: addresses strictly rising and inside the buffer (R40). An unlisted address has no value of its
own, so no entry can equal what it reads as. -/
def Memory.wf (m : Memory) : Bool :=
  (match m with
   | [] => true
   | (a, _) :: rest => Memory.risesAbove a rest) && m.all fun c => c.1 < bufCap

/-- `MemRead(a, 1)` of R13 on the whole state: the byte written at `a`, or the free value for a byte nothing has
written, an address that does not exist among them (U5, R41; logs 5 and 14). -/
def bufRead (s : State) (addr : Nat) : Byte :=
  (Memory.read? s.buf addr).getD (Config.unwrittenByte addr)

/-- `[MemRead(0,1), …, MemRead(length − 1, 1)]` of R117. -/
def readPayload (s : State) : List Byte := (List.range s.length.toNat).map (bufRead s)

/-- `MemWrite(offset, 1, d)` of R115. An address that does not exist holds nothing: no byte changes (R41, R42: "there is
no bounds fault to model"; log 14). -/
def bufWrite (addr : Nat) (d : Byte) (s : State) : State :=
  if addr < bufCap then { s with buf := Memory.write s.buf addr d } else s

end Sys2Proof.Machine
end

