-- ==== Sys2Proof/Machine/BitSlicer.lean ====
section
/-! DEFINITION. The Bit Slicer (41_bit_slicer.md): `THR_UPDATE`, `DECIMATE`, `SLICE`. `BYTE_IN` is in Pipeline, since it
calls `SAMPLE`. -/

namespace Sys2Proof.Machine

/-- The quotient of R87 in the rounding of R88; `tdiv` is the one of R12. -/
def roundedQuotient (m : DivMode) (acc k : Int) : Int :=
  match m with
  | .towardZero => Int.tdiv acc k
  | .floor => Int.fdiv acc k

/-- The accumulator of R87, exact (R90): `signed(s) + (K − 1)·signed(threshold)`. -/
def thresholdAcc (c : Config) (sample threshold : Word) : Int :=
  sample.toInt + ((averagingWeight c : Int) - 1) * threshold.toInt

/-- `threshold'` of R87. It fits 16 bits for every `N ≥ 1` (R89). -/
def nextThreshold (c : Config) (sample threshold : Word) : Word :=
  BitVec.ofInt 16 (roundedQuotient c.divMode (thresholdAcc c sample threshold) (averagingWeight c))

/-- `THR_UPDATE(s)` (R87). -/
def thrUpdate (sample : Word) (s : State) : State :=
  { s with threshold := nextThreshold s.cfg sample s.threshold }

/-- `DECIMATE()` (R91): count down, at 1 reload `N` and report a boundary. -/
def decimate (s : State) : State :=
  if s.decCnt = 1 then { s with decCnt := s.cfg.n, boundary := true }
  else { s with decCnt := s.decCnt - 1, boundary := false }

/-- The comparison of R92: signed and strict; true is the digit 1 (decision D22). -/
def slicedBit (sample threshold : Word) : Bit := BitVec.ofBool (decide (threshold.toInt < sample.toInt))

/-- `SLICE(s)` (R92), after `THR_UPDATE` in the same step: the register already holds `threshold'`. -/
def slice (sample : Word) (s : State) : State := { s with bitTap := some (slicedBit sample s.threshold) }

/-- The meaning of `THR_UPDATE` (R87). -/
def execThrUpdate (sample : Word) (s : State) : Answer := configured s (thrUpdate sample s)

/-- The meaning of `DECIMATE` (R91). -/
def execDecimate (s : State) : Answer := configured s (decimate s)

/-- The meaning of `SLICE` (R92). -/
def execSlice (sample : Word) (s : State) : Answer := configured s (slice sample s)

end Sys2Proof.Machine
end

