-- ==== Sys2Proof/Machine/CrcEngine.lean ====
section
/-! DEFINITION. The CRC Engine (40_crc_engine.md): `CRC_UPDATE`. -/

namespace Sys2Proof.Machine

/-- One iteration of R80: shift left, and XOR the polynomial when the bit shifted out was 1. -/
def crcIteration (c : Word) : Word :=
  if c.getLsbD 15 then (c <<< 1) ^^^ crcPoly else c <<< 1

/-- `k` iterations of R80. -/
def crcIterations : Nat → Word → Word
  | 0, c => c
  | k + 1, c => crcIterations k (crcIteration c)

/-- `CRC_UPDATE(crc, d)` of R80: the byte enters at bits 15:8, then eight iterations. -/
def crcByte (crc : Word) (d : Byte) : Word := crcIterations 8 (crc ^^^ (d ++ 0x00#8))

/-- `crc_seq` of R82: the left fold of `CRC_UPDATE`. -/
def crcSeq (seed : Word) (ds : List Byte) : Word := ds.foldl crcByte seed

/-- `CRC_UPDATE` inside a step: no register is written, the caller gets the result (R80, R81). -/
def crcUpdate (crc : Word) (d : Byte) (s : State) : State := { s with crcOut := some (crcByte crc d) }

/-- `crc_acc <- CRC_UPDATE(crc_acc, d)` of R114 and R115: the caller stores the result. -/
def crcAccumulate (d : Byte) (s : State) : State :=
  { crcUpdate s.crcAcc d s with crcAcc := crcByte s.crcAcc d }

/-- The meaning of `CRC_UPDATE` (R80). -/
def execCrcUpdate (crc : Word) (d : Byte) (s : State) : Answer := configured s (crcUpdate crc d s)

end Sys2Proof.Machine
end

