-- ==== Sys2Proof/Machine/PacketAssembler.lean ====
section
/-! DEFINITION. The Packet Assembler (43_packet_assembler.md): `ASM_LENGTH`, `ASM_PAYLOAD`, `ASM_CRC_HI`, `ASM_CRC_LO`,
and the call table `BYTE` (R113, 44_pipeline_step.md R132). -/

namespace Sys2Proof.Machine

/-- `ASM_LENGTH(d)` (R114); `raise OversizedLength` is R142. -/
def asmLength (d : Byte) (s : State) : State :=
  let s := { crcAccumulate d s with length := d }
  if maxLen < d.toNat then
    emit (.oversize d) { s with endCode := .rejectedOversize, ended := true }
  else
    emit (.length d)
      { s with astate := if d = 0#8 then .readCrcHi else .readPayload, ended := false }

/-- `ASM_PAYLOAD(d)` (R115). -/
def asmPayload (d : Byte) (s : State) : State :=
  { crcAccumulate d (bufWrite s.offset.toNat d s) with
    offset := s.offset + 1
    astate := if s.offset + 1 = s.length then .readCrcHi else s.astate
    ended := false }

/-- `ASM_CRC_HI(d)` (R116). -/
def asmCrcHi (d : Byte) (s : State) : State :=
  { s with rxCrc := d ++ 0x00#8, astate := .readCrcLo, ended := false }

/-- `ASM_CRC_LO(d)` (R117 to R119); `raise ChecksumMismatch` is R143. -/
def asmCrcLo (d : Byte) (s : State) : State :=
  let received := complementChecksum (checksumOfBytes s.rxCrc d)
  let s := { s with rxCrc := received, ended := true }
  if received = s.crcAcc then
    emit (.packet s.length (readPayload s)) { s with endCode := .accepted }
  else emit (.crcMismatch received s.crcAcc) { s with endCode := .rejectedCrc }

/-- `BYTE(d)` (R113, R132): dispatch on `astate`. -/
def deliverByte (d : Byte) (s : State) : State :=
  match s.astate with
  | .awaitLength => asmLength d s
  | .readPayload => asmPayload d s
  | .readCrcHi => asmCrcHi d s
  | .readCrcLo => asmCrcLo d s

/-- The meaning of `ASM_LENGTH` (R114). -/
def execAsmLength (d : Byte) (s : State) : Answer := configured s (asmLength d s)

/-- The meaning of `ASM_PAYLOAD` (R115). -/
def execAsmPayload (d : Byte) (s : State) : Answer := configured s (asmPayload d s)

/-- The meaning of `ASM_CRC_HI` (R116). -/
def execAsmCrcHi (d : Byte) (s : State) : Answer := configured s (asmCrcHi d s)

/-- The meaning of `ASM_CRC_LO` (R117). -/
def execAsmCrcLo (d : Byte) (s : State) : Answer := configured s (asmCrcLo d s)

end Sys2Proof.Machine
end

