-- ==== Sys2Proof/Machine/SyncFramer.lean ====
section
/-! DEFINITION. The Sync/Framer (42_sync_framer.md): `SYNC_SHIFT`, `SESSION_INIT`, `BYTE_SHIFT`, `SESSION_END`, and the
call table `BIT` (R99, 44_pipeline_step.md R131). -/

namespace Sys2Proof.Machine

/-- `SESSION_INIT()` (R102). -/
def sessionInit (s : State) : State :=
  { s with astate := .awaitLength, offset := 0#8, crcAcc := s.cfg.crcSeed, rxCrc := 0x0000#16 }

/-- `SYNC_SHIFT(b)` (R100, R101): shift, and on an exact match start a session. -/
def syncShift (b : Bit) (s : State) : State :=
  let reg := shiftIntoSync s.syncReg b
  let s := { s with syncReg := reg }
  if isSyncWord reg then
    emit (.sync reg) (sessionInit { s with fstate := .synced, bitCnt := 8#4 })
  else s

/-- `SESSION_END()` (R106): nothing but `fstate` is written. -/
def sessionEnd (s : State) : State := { s with fstate := .searching }

/-- `if ended: call SESSION_END()` of R104. -/
def endIfEnded (s : State) : State := if s.ended then sessionEnd s else s

/-- `BYTE_SHIFT(b)` (R104): on the eighth bit the byte goes to the assembler in the same step. -/
def byteShift (b : Bit) (s : State) : State :=
  let acc := shiftIntoByte s.byteAcc b
  if s.bitCnt = 1#4 then endIfEnded (deliverByte acc { s with byteAcc := acc, bitCnt := 8#4 })
  else { s with byteAcc := acc, bitCnt := s.bitCnt - 1#4 }

/-- `BIT(b)` (R99, R131): `fstate` is read before the step. -/
def receiveBit (b : Bit) (s : State) : State :=
  match s.fstate with
  | .searching => syncShift b s
  | .synced => byteShift b s

/-- The meaning of `SYNC_SHIFT` (R100). -/
def execSyncShift (b : Bit) (s : State) : Answer := configured s (syncShift b s)

/-- The meaning of `SESSION_INIT` (R102). -/
def execSessionInit (s : State) : Answer := configured s (sessionInit s)

/-- The meaning of `BYTE_SHIFT` (R104). -/
def execByteShift (b : Bit) (s : State) : Answer := configured s (byteShift b s)

/-- The meaning of `SESSION_END` (R106). -/
def execSessionEnd (s : State) : Answer := configured s (sessionEnd s)

end Sys2Proof.Machine
end

