-- ==== Sys2Proof/Machine/Pipeline.lean ====
section
/-! DEFINITION. The composed step (44_pipeline_step.md): `RESET`, `IDLE`, `SAMPLE`, and the front end's `BYTE_IN`
(41_bit_slicer.md R86, 44 R134). -/

namespace Sys2Proof.Machine

/-- `RESET` (R128): every register from the table of R37; `buf` is left as it is. -/
def resetRegisters (s : State) : State :=
  { s with
    loByte := 0x00#8, haveLo := false
    threshold := 0#16, decCnt := s.cfg.n
    fstate := .searching, syncReg := 0x0000#16, byteAcc := 0x00#8, bitCnt := 8#4
    astate := .awaitLength, length := 0#8, offset := 0#8, crcAcc := s.cfg.crcSeed, rxCrc := 0x0000#16 }

/-- `if boundary:` of R130: slice, then hand the bit to the framer. -/
def sliceAtBoundary (sample : Word) (s : State) : State :=
  if s.boundary then receiveBit (slicedBit sample s.threshold) (slice sample s) else s

/-- `SAMPLE(s)` (R130). -/
def sampleStep (sample : Word) (s : State) : State := sliceAtBoundary sample (decimate (thrUpdate sample s))

/-- `BYTE_IN(b)` (R86): a low byte is latched, a high byte completes a sample. `lo_byte` is not cleared. -/
def byteIn (b : Byte) (s : State) : State :=
  if s.haveLo then sampleStep (sampleOfBytes b s.loByte) { s with haveLo := false }
  else { s with loByte := b, haveLo := true }

/-- The meaning of `RESET` (R128). -/
def execReset (s : State) : Answer := configured s (resetRegisters (beginStep s))

/-- The meaning of `IDLE` (R129). -/
def execIdle (s : State) : Answer := configured s (beginStep s)

/-- The meaning of `SAMPLE` (R130). -/
def execSample (sample : Word) (s : State) : Answer := configured s (sampleStep sample (beginStep s))

/-- The meaning of `BYTE_IN` (R86, R134). -/
def execByteIn (b : Byte) (s : State) : Answer := configured s (byteIn b (beginStep s))

end Sys2Proof.Machine
end

