-- ==== Sys2Proof/Machine/WirePatterns.lean ====
section
/-! DEFINITION. The wire patterns of 30_encoding.md R58 and R60 to R63 (the `WIRE.*` rows): what the block does when it
receives them. A pattern of the bit stream goes bit by bit, most significant bit first (R47, R48), through `BIT` (R131),
as bits the slicer has sliced; which field a byte is, its position decides (R61, R65), as in the block. The outputs of
the bit steps are gathered in order (R135). `WIRE.SAMPLE` goes byte by byte through `BYTE_IN`. DESIGN CHOICE (log 12). -/

namespace Sys2Proof.Machine

/-- The framer receives bits, one a bit step, the first one first. The bits come as already sliced and no `SLICE` runs, so
`bitTap` stays as it is: none in a pattern of the bit stream, `bit_valid` 0. The spec gives a wire pattern no outputs; this
is the model's DESIGN CHOICE (log 12). -/
def receiveBits : List Bit → State → State
  | [], s => s
  | b :: bs, s => receiveBits bs (receiveBit b s)

/-- The framer receives a byte of the bit stream (R47, R105). -/
def receiveByte (d : Byte) (s : State) : State := receiveBits (msbFirst d) s

/-- The framer receives a 16-bit pattern of the bit stream (R48, R60). -/
def receiveWord (w : Word) (s : State) : State := receiveBits (msbFirst w) s

/-- The front end receives the two stream bytes of a sample (R58, R86). The tap shows the bit sliced in either byte's step,
if one was (DESIGN CHOICE, log 12). -/
def receiveSample (v : Word) (s : State) : State :=
  byteIn (sampleBytes v).2 (byteIn (sampleBytes v).1 s)

/-- The meaning of `WIRE.SYNC_WORD` (R60, R100). -/
def execWireSyncWord (s : State) : Answer := configured s (receiveWord syncWord (beginStep s))

/-- The meaning of `WIRE.SYNC_WORD_INV` (R60, R100, R108). -/
def execWireSyncWordInv (s : State) : Answer := configured s (receiveWord syncWordInv (beginStep s))

/-- The meaning of `WIRE.LEN` (R62, R114). -/
def execWireLen (l : Byte) (s : State) : Answer := configured s (receiveByte l (beginStep s))

/-- The meaning of `WIRE.LEN_OVERSIZE` (R62, R114, R142). -/
def execWireLenOversize (s : State) : Answer := configured s (receiveByte 0xFF#8 (beginStep s))

/-- The meaning of `WIRE.PAYLOAD_BYTE` (R61, R115). -/
def execWirePayloadByte (p : Byte) (s : State) : Answer := configured s (receiveByte p (beginStep s))

/-- The meaning of `WIRE.CRC_HI` (R61, R116). -/
def execWireCrcHi (c : Byte) (s : State) : Answer := configured s (receiveByte c (beginStep s))

/-- The meaning of `WIRE.CRC_LO` (R61, R117). -/
def execWireCrcLo (c : Byte) (s : State) : Answer := configured s (receiveByte c (beginStep s))

/-- The meaning of `WIRE.SAMPLE` (R58, R86). -/
def execWireSample (v : Word) (s : State) : Answer := configured s (receiveSample v (beginStep s))

end Sys2Proof.Machine
end

