-- ==== Sys2Proof/Syntax.lean ====
section
/-! DEFINITION. The instructions: one constructor per row of spec/opcode_table.json (30_encoding.md R70), with the
operands the rule of that row names. Operations called inside a step (R13 `call OP(args)`) and wire patterns included. -/

namespace Sys2Proof

/-- The 16 operations of R70 and the 8 wire patterns of R58 and R60 to R63. -/
inductive Instr where
  /-- `RESET` (R128). -/
  | reset
  /-- `IDLE` (R129). -/
  | idle
  /-- `SAMPLE(s)` (R130). -/
  | sample (s : Word)
  /-- `THR_UPDATE(s)` (R87). -/
  | thrUpdate (s : Word)
  /-- `DECIMATE()` (R91). -/
  | decimate
  /-- `SLICE(s)` (R92). -/
  | slice (s : Word)
  /-- `SYNC_SHIFT(b)` (R100). -/
  | syncShift (b : Bit)
  /-- `SESSION_INIT()` (R102). -/
  | sessionInit
  /-- `BYTE_SHIFT(b)` (R104). -/
  | byteShift (b : Bit)
  /-- `ASM_LENGTH(d)` (R114). -/
  | asmLength (d : Byte)
  /-- `ASM_PAYLOAD(d)` (R115). -/
  | asmPayload (d : Byte)
  /-- `ASM_CRC_HI(d)` (R116). -/
  | asmCrcHi (d : Byte)
  /-- `ASM_CRC_LO(d)` (R117). -/
  | asmCrcLo (d : Byte)
  /-- `CRC_UPDATE(crc, d)` (R80). -/
  | crcUpdate (crc : Word) (d : Byte)
  /-- `SESSION_END()` (R106). -/
  | sessionEnd
  /-- `BYTE_IN(b)` (R86). -/
  | byteIn (b : Byte)
  /-- `WIRE.SYNC_WORD`: the 16 bits `0x2DAA` on the bit stream (R60). -/
  | wireSyncWord
  /-- `WIRE.SYNC_WORD_INV`: the 16 bits `0xD255` on the bit stream (R60). -/
  | wireSyncWordInv
  /-- `WIRE.LEN`: a legal `LEN` byte (R61, R62). -/
  | wireLen (l : Byte)
  /-- `WIRE.LEN_OVERSIZE`: the illegal `LEN` byte 255 (R62). -/
  | wireLenOversize
  /-- `WIRE.PAYLOAD_BYTE`: one byte of the `PAYLOAD` field (R61). -/
  | wirePayloadByte (p : Byte)
  /-- `WIRE.CRC_HI`: the `CRC_HI` byte (R61, R63). -/
  | wireCrcHi (c : Byte)
  /-- `WIRE.CRC_LO`: the `CRC_LO` byte (R61, R63). -/
  | wireCrcLo (c : Byte)
  /-- `WIRE.SAMPLE`: two bytes of the input stream, low byte first (R58). -/
  | wireSample (s : Word)
  deriving DecidableEq, Repr

end Sys2Proof
end

