-- ==== Sys2Proof/Machine/Dispatch.lean ====
section
/-! DEFINITION. One arm per instruction: the meaning of each is its own definition, in the file of its component. -/

namespace Sys2Proof.Machine

def exec (i : Instr) (s : State) : Host.Outcome State Fault Refusal :=
  match i with
  | .reset => Sys2Proof.Machine.execReset s
  | .idle => Sys2Proof.Machine.execIdle s
  | .sample v => Sys2Proof.Machine.execSample v s
  | .thrUpdate v => Sys2Proof.Machine.execThrUpdate v s
  | .decimate => Sys2Proof.Machine.execDecimate s
  | .slice v => Sys2Proof.Machine.execSlice v s
  | .syncShift b => Sys2Proof.Machine.execSyncShift b s
  | .sessionInit => Sys2Proof.Machine.execSessionInit s
  | .byteShift b => Sys2Proof.Machine.execByteShift b s
  | .asmLength d => Sys2Proof.Machine.execAsmLength d s
  | .asmPayload d => Sys2Proof.Machine.execAsmPayload d s
  | .asmCrcHi d => Sys2Proof.Machine.execAsmCrcHi d s
  | .asmCrcLo d => Sys2Proof.Machine.execAsmCrcLo d s
  | .crcUpdate crc d => Sys2Proof.Machine.execCrcUpdate crc d s
  | .sessionEnd => Sys2Proof.Machine.execSessionEnd s
  | .byteIn b => Sys2Proof.Machine.execByteIn b s
  | .wireSyncWord => Sys2Proof.Machine.execWireSyncWord s
  | .wireSyncWordInv => Sys2Proof.Machine.execWireSyncWordInv s
  | .wireLen l => Sys2Proof.Machine.execWireLen l s
  | .wireLenOversize => Sys2Proof.Machine.execWireLenOversize s
  | .wirePayloadByte p => Sys2Proof.Machine.execWirePayloadByte p s
  | .wireCrcHi c => Sys2Proof.Machine.execWireCrcHi c s
  | .wireCrcLo c => Sys2Proof.Machine.execWireCrcLo c s
  | .wireSample v => Sys2Proof.Machine.execWireSample v s

end Sys2Proof.Machine
end

