-- ==== Sys2Proof/WellFormed.lean ====
section
/-! DEFINITION. Which terms of `Instr` the formats admit. Operand widths are in the types; the one further limit is
the `LEN` row's: every value but `0xFF`, which is `WIRE.LEN_OVERSIZE` (30_encoding.md R62). -/

namespace Sys2Proof

/-- The check of R62 on `WIRE.LEN`; every other constructor's operands are legal at every value. -/
def Instr.wellFormed : Instr → Bool
  | .wireLen l => l != 0xFF#8
  | .reset | .idle | .sample _ | .thrUpdate _ | .decimate | .slice _ | .syncShift _ | .sessionInit
  | .byteShift _ | .asmLength _ | .asmPayload _ | .asmCrcHi _ | .asmCrcLo _ | .crcUpdate _ _ | .sessionEnd
  | .byteIn _ | .wireSyncWord | .wireSyncWordInv | .wireLenOversize | .wirePayloadByte _ | .wireCrcHi _
  | .wireCrcLo _ | .wireSample _ => true

/-- The term is one the formats admit. -/
abbrev Instr.WellFormed (i : Instr) : Prop := i.wellFormed = true

end Sys2Proof
end

