-- ==== Sys2Proof/Decode.lean ====
section
/-! DEFINITION. The dispatch words and wire patterns of 30_encoding.md: decoder, encoder, and the host's table word.

Several operations fire on one dispatch word (R67), so the decoder is asked FOR ONE UNIT of the block: at most one
operation of a unit fires in a step (DESIGN CHOICE, log 10). A dispatch word says which operation fires and carries no
operand; the operands follow it as bytes, low byte first (DESIGN CHOICE, log 11). -/

namespace Sys2Proof

/-- The units that look at a dispatch word, at the bit stream or at the byte stream, each with the operations it owns. -/
inductive BlockUnit where
  /-- The step as a whole: `RESET`, `IDLE`, `SAMPLE`. -/
  | sequencer
  /-- The byte front end, on its own 3-bit word (R68): `BYTE_IN`, or `RESET`, `IDLE`. -/
  | frontEnd
  /-- `THR_UPDATE`. -/
  | threshold
  /-- `DECIMATE`. -/
  | decimator
  /-- `SLICE`. -/
  | slicer
  /-- `SYNC_SHIFT`, `BYTE_SHIFT`. -/
  | framer
  /-- `SESSION_INIT`. -/
  | sessionStart
  /-- `ASM_LENGTH`, `ASM_PAYLOAD`, `ASM_CRC_HI`, `ASM_CRC_LO`. -/
  | assembler
  /-- `CRC_UPDATE`. -/
  | crcEngine
  /-- `SESSION_END`. -/
  | sessionStop
  /-- The 16-bit window of the bit stream (R60). -/
  | syncWindow
  /-- The `LEN` field (R61, R62). -/
  | lenField
  /-- The `PAYLOAD` field (R61). -/
  | payloadField
  /-- The `CRC_HI` field (R61). -/
  | crcHiField
  /-- The `CRC_LO` field (R61). -/
  | crcLoField
  /-- The 2-byte sample format (R58). -/
  | sampleFormat
  deriving DecidableEq, Repr

/-- Why a unit reads no instruction from bytes. -/
inductive DecodeError where
  /-- The bytes end before the word or its operands do. -/
  | truncated
  /-- A byte where a dispatch word is expected has a bit above the word set. -/
  | notADispatchWord
  /-- No operation of the unit fires on this word (R67). -/
  | nothingFires
  /-- A bit operand's byte is neither 0 nor 1. -/
  | notABit
  /-- The 16 bits are neither sync word: an exact match is required (R72, R101). -/
  | notASyncWord
  deriving DecidableEq, Repr

/-- The `match`/`mask` pair of a CW7 row of the table: a position with mask bit 0 is a don't care (R69). -/
structure Pattern where
  mask : BitVec 7
  value : BitVec 7
  deriving DecidableEq, Repr

/-- The operation fires on the dispatch word (R67: "fires in a step iff `cw` matches its pattern"). -/
def Pattern.fires (p : Pattern) (cw : BitVec 7) : Bool := (cw &&& p.mask) == p.value

/-- `1xxxxxx` (R69). -/
def patReset : Pattern := ⟨0b1000000#7, 0b1000000#7⟩
/-- `00xxxxx` (R69). -/
def patIdle : Pattern := ⟨0b1100000#7, 0b0000000#7⟩
/-- `01xxxxx` (R69): `SAMPLE`. -/
def patSample : Pattern := ⟨0b1100000#7, 0b0100000#7⟩
/-- `01xxxxx` (R69): `THR_UPDATE`. -/
def patThrUpdate : Pattern := ⟨0b1100000#7, 0b0100000#7⟩
/-- `01xxxxx` (R69): `DECIMATE`. -/
def patDecimate : Pattern := ⟨0b1100000#7, 0b0100000#7⟩
/-- `011xxxx` (R69). -/
def patSlice : Pattern := ⟨0b1110000#7, 0b0110000#7⟩
/-- `0110xxx` (R69): `SYNC_SHIFT`. -/
def patSyncShift : Pattern := ⟨0b1111000#7, 0b0110000#7⟩
/-- `0110xxx`, and the match condition of R100 (R69): `SESSION_INIT`. -/
def patSessionInit : Pattern := ⟨0b1111000#7, 0b0110000#7⟩
/-- `0111xxx` (R69). -/
def patByteShift : Pattern := ⟨0b1111000#7, 0b0111000#7⟩
/-- `0111100` (R69). -/
def patAsmLength : Pattern := ⟨0b1111111#7, 0b0111100#7⟩
/-- `0111101` (R69). -/
def patAsmPayload : Pattern := ⟨0b1111111#7, 0b0111101#7⟩
/-- `0111110` (R69). -/
def patAsmCrcHi : Pattern := ⟨0b1111111#7, 0b0111110#7⟩
/-- `0111111` (R69). -/
def patAsmCrcLo : Pattern := ⟨0b1111111#7, 0b0111111#7⟩
/-- `011110x` (R69). -/
def patCrcUpdate : Pattern := ⟨0b1111110#7, 0b0111100#7⟩
/-- `01111xx`, and a terminal outcome (R69). -/
def patSessionEnd : Pattern := ⟨0b1111100#7, 0b0111100#7⟩

/-- What the sequencer decodes from `cw` (R67): every one of the 128 words is exactly one of the three kinds. -/
def decodeCw (cw : BitVec 7) (s : Word) : Instr :=
  if patReset.fires cw then .reset
  else if patIdle.fires cw then .idle
  else .sample s

/-- What the front end decodes from `fw = {rst, in_byte_valid, have_lo}` (R68): `1xx`, `00x`, `01x`. -/
def decodeFw (fw : BitVec 3) (b : Byte) : Instr :=
  if fw.getLsbD 2 then .reset
  else if fw.getLsbD 1 then .byteIn b
  else .idle

/-- The answer of a decoder: the instruction and the bytes it left, or a reason. -/
abbrev Decoded := Except DecodeError (Instr × List Byte)

/-- Read a CW7 byte: bit 7 is above the word and must be 0. -/
def takeCw (bs : List Byte) (k : BitVec 7 → List Byte → Decoded) : Decoded :=
  match bs with
  | [] => .error .truncated
  | b :: rest => if b.getLsbD 7 then .error .notADispatchWord else k (b.extractLsb' 0 7) rest

/-- Read an FW3 byte: bits 7 to 3 are above the word and must be 0. -/
def takeFw (bs : List Byte) (k : BitVec 3 → List Byte → Decoded) : Decoded :=
  match bs with
  | [] => .error .truncated
  | b :: rest => if b.extractLsb' 3 5 = 0#5 then k (b.extractLsb' 0 3) rest else .error .notADispatchWord

/-- Read a byte operand. -/
def takeByte (bs : List Byte) (k : Byte → List Byte → Decoded) : Decoded :=
  match bs with
  | [] => .error .truncated
  | b :: rest => k b rest

/-- Read a 16-bit operand, low byte first (the order of R58). -/
def takeWord (bs : List Byte) (k : Word → List Byte → Decoded) : Decoded :=
  match bs with
  | lo :: hi :: rest => k (hi ++ lo) rest
  | _ => .error .truncated

/-- Read a bit operand: a byte 0 or 1. -/
def takeBit (bs : List Byte) (k : Bit → List Byte → Decoded) : Decoded :=
  match bs with
  | [] => .error .truncated
  | b :: rest => if b.extractLsb' 1 7 = 0#7 then k (b.extractLsb' 0 1) rest else .error .notABit

/-- The instruction a unit of the block reads from bytes, and the bytes after it. Total, rejecting by name. -/
def decode (u : BlockUnit) (bs : List Byte) : Decoded :=
  match u with
  | .sequencer => takeCw bs fun cw rest =>
      if patReset.fires cw || patIdle.fires cw then .ok (decodeCw cw 0, rest)
      else takeWord rest fun s rest => .ok (decodeCw cw s, rest)
  | .frontEnd => takeFw bs fun fw rest =>
      if fw.getLsbD 2 || !fw.getLsbD 1 then .ok (decodeFw fw 0, rest)
      else takeByte rest fun b rest => .ok (decodeFw fw b, rest)
  | .threshold => takeCw bs fun cw rest =>
      if patThrUpdate.fires cw then takeWord rest fun s rest => .ok (.thrUpdate s, rest)
      else .error .nothingFires
  | .decimator => takeCw bs fun cw rest =>
      if patDecimate.fires cw then .ok (.decimate, rest) else .error .nothingFires
  | .slicer => takeCw bs fun cw rest =>
      if patSlice.fires cw then takeWord rest fun s rest => .ok (.slice s, rest)
      else .error .nothingFires
  | .framer => takeCw bs fun cw rest =>
      if patSyncShift.fires cw then takeBit rest fun b rest => .ok (.syncShift b, rest)
      else if patByteShift.fires cw then takeBit rest fun b rest => .ok (.byteShift b, rest)
      else .error .nothingFires
  | .sessionStart => takeCw bs fun cw rest =>
      if patSessionInit.fires cw then .ok (.sessionInit, rest) else .error .nothingFires
  | .assembler => takeCw bs fun cw rest =>
      if patAsmLength.fires cw then takeByte rest fun d rest => .ok (.asmLength d, rest)
      else if patAsmPayload.fires cw then takeByte rest fun d rest => .ok (.asmPayload d, rest)
      else if patAsmCrcHi.fires cw then takeByte rest fun d rest => .ok (.asmCrcHi d, rest)
      else if patAsmCrcLo.fires cw then takeByte rest fun d rest => .ok (.asmCrcLo d, rest)
      else .error .nothingFires
  | .crcEngine => takeCw bs fun cw rest =>
      if patCrcUpdate.fires cw then
        takeByte rest fun d rest => takeWord rest fun crc rest => .ok (.crcUpdate crc d, rest)
      else .error .nothingFires
  | .sessionStop => takeCw bs fun cw rest =>
      if patSessionEnd.fires cw then .ok (.sessionEnd, rest) else .error .nothingFires
  | .syncWindow => takeByte bs fun hi rest => takeByte rest fun lo rest =>
      if (hi ++ lo : Word) = 0x2DAA#16 then .ok (.wireSyncWord, rest)
      else if (hi ++ lo : Word) = 0xD255#16 then .ok (.wireSyncWordInv, rest)
      else .error .notASyncWord
  | .lenField => takeByte bs fun l rest =>
      if l = 0xFF#8 then .ok (.wireLenOversize, rest) else .ok (.wireLen l, rest)
  | .payloadField => takeByte bs fun p rest => .ok (.wirePayloadByte p, rest)
  | .crcHiField => takeByte bs fun c rest => .ok (.wireCrcHi c, rest)
  | .crcLoField => takeByte bs fun c rest => .ok (.wireCrcLo c, rest)
  | .sampleFormat => takeWord bs fun s rest => .ok (.wireSample s, rest)

/-! ### The encoder -/

/-- The byte that holds a dispatch word. -/
def cwByte (cw : BitVec 7) : Byte := 0#1 ++ cw

/-- The low and the high byte of a 16-bit operand, in the order of R58. -/
def wordBytes (w : Word) : List Byte := [w.extractLsb' 0 8, w.extractLsb' 8 8]

/-- The byte that holds a bit operand. -/
def bitByte (b : Bit) : Byte := 0#7 ++ b

/-- The unit that reads the instruction and its bytes: the row's dispatch word with every don't care 0, then the
operands. -/
def encode : Instr → BlockUnit × List Byte
  | .reset => (.sequencer, [cwByte 0b1000000#7])
  | .idle => (.sequencer, [cwByte 0b0000000#7])
  | .sample s => (.sequencer, cwByte 0b0100000#7 :: wordBytes s)
  | .thrUpdate s => (.threshold, cwByte 0b0100000#7 :: wordBytes s)
  | .decimate => (.decimator, [cwByte 0b0100000#7])
  | .slice s => (.slicer, cwByte 0b0110000#7 :: wordBytes s)
  | .syncShift b => (.framer, [cwByte 0b0110000#7, bitByte b])
  | .sessionInit => (.sessionStart, [cwByte 0b0110000#7])
  | .byteShift b => (.framer, [cwByte 0b0111000#7, bitByte b])
  | .asmLength d => (.assembler, [cwByte 0b0111100#7, d])
  | .asmPayload d => (.assembler, [cwByte 0b0111101#7, d])
  | .asmCrcHi d => (.assembler, [cwByte 0b0111110#7, d])
  | .asmCrcLo d => (.assembler, [cwByte 0b0111111#7, d])
  | .crcUpdate crc d => (.crcEngine, cwByte 0b0111100#7 :: d :: wordBytes crc)
  | .sessionEnd => (.sessionStop, [cwByte 0b0111100#7])
  | .byteIn b => (.frontEnd, [0b00000010#8, b])
  | .wireSyncWord => (.syncWindow, [0x2D#8, 0xAA#8])
  | .wireSyncWordInv => (.syncWindow, [0xD2#8, 0x55#8])
  | .wireLen l => (.lenField, [l])
  | .wireLenOversize => (.lenField, [0xFF#8])
  | .wirePayloadByte p => (.payloadField, [p])
  | .wireCrcHi c => (.crcHiField, [c])
  | .wireCrcLo c => (.crcLoField, [c])
  | .wireSample s => (.sampleFormat, wordBytes s)

/-! ### The operation map -/

/-- The operations of R67's row for `cw`, in the order of R133, with the operands of this step: the sample `s` and the
sliced bit `b`. Operations that fire inside another one (R69) are called by it. -/
def operationMap (cw : BitVec 7) (s : Word) (b : Bit) : List Instr :=
  if patReset.fires cw then [.reset]
  else if patIdle.fires cw then [.idle]
  else
    .thrUpdate s :: .decimate ::
      (if patSyncShift.fires cw then [.slice s, .syncShift b]
       else if patByteShift.fires cw then [.slice s, .byteShift b]
       else [])

/-! ### The host's table word -/

/-- The first unit that reads an instruction from the byte `w` and zero operand bytes. -/
def firstReading (w : Byte) : List BlockUnit → Option Instr
  | [] => none
  | u :: us =>
    match decode u [w, 0, 0, 0] with
    | .ok (i, _) => some i
    | .error _ => firstReading w us

/-- The instruction read from a word numbered as the table numbers it. One word is several rows' word, and one answer is
given (DESIGN CHOICE, log 10): the operation deepest in the step, so `ASM_*` before the framer's operations before
`RESET`, `IDLE`, `SAMPLE`; the bytes 2 and 3 as the front end's word; a byte above a dispatch word as `LEN`; 16 bits as
a sync word where they are one, else as a sample in stream order (its first byte is the low one). -/
def decodeTableWord (nbits w : Nat) : Option Instr :=
  match nbits with
  | 16 =>
    if w < 65536 then
      let hi := BitVec.ofNat 8 (w / 256)
      let lo := BitVec.ofNat 8 w
      match decode .syncWindow [hi, lo] with
      | .ok (i, _) => some i
      | .error _ =>
        match decode .sampleFormat [lo, hi] with
        | .ok (i, _) => some i
        | .error _ => none
    else none
  | 8 =>
    if w < 256 then
      if w = 2 ∨ w = 3 then firstReading (BitVec.ofNat 8 w) [.frontEnd]
      else firstReading (BitVec.ofNat 8 w) [.assembler, .framer, .sequencer, .lenField]
    else none
  | 7 =>
    if w < 128 then firstReading (BitVec.ofNat 8 w) [.assembler, .framer, .sequencer] else none
  | 3 =>
    if w < 8 then firstReading (BitVec.ofNat 8 w) [.frontEnd] else none
  | _ => none

/-- The row of the table an instruction stands for: how many bits it fixes its `match` and `mask` over, the mask and
the match value (spec/opcode_table.json). -/
def tableRow : Instr → Nat × Nat × Nat
  | .reset => (7, 0x40, 0x40)
  | .idle => (7, 0x60, 0x00)
  | .sample _ => (7, 0x60, 0x20)
  | .thrUpdate _ => (7, 0x60, 0x20)
  | .decimate => (7, 0x60, 0x20)
  | .slice _ => (7, 0x70, 0x30)
  | .syncShift _ => (7, 0x78, 0x30)
  | .sessionInit => (7, 0x78, 0x30)
  | .byteShift _ => (7, 0x78, 0x38)
  | .asmLength _ => (7, 0x7F, 0x3C)
  | .asmPayload _ => (7, 0x7F, 0x3D)
  | .asmCrcHi _ => (7, 0x7F, 0x3E)
  | .asmCrcLo _ => (7, 0x7F, 0x3F)
  | .crcUpdate _ _ => (7, 0x7E, 0x3C)
  | .sessionEnd => (7, 0x7C, 0x3C)
  | .byteIn _ => (3, 0x6, 0x2)
  | .wireSyncWord => (16, 0xFFFF, 0x2DAA)
  | .wireSyncWordInv => (16, 0xFFFF, 0xD255)
  | .wireLen _ => (8, 0x00, 0x00)
  | .wireLenOversize => (8, 0xFF, 0xFF)
  | .wirePayloadByte _ => (8, 0x00, 0x00)
  | .wireCrcHi _ => (8, 0x00, 0x00)
  | .wireCrcLo _ => (8, 0x00, 0x00)
  | .wireSample _ => (16, 0x0000, 0x0000)

/-- The number the table's mask is applied to: the first byte of a byte-wide row, the 16 bits of a sync word in the
order they arrive, the 16 bits of a sample in stream order. -/
def tableNumber (i : Instr) (bs : List Byte) : Nat :=
  match i, bs with
  | .wireSyncWord, hi :: lo :: _ | .wireSyncWordInv, hi :: lo :: _ => hi.toNat * 256 + lo.toNat
  | .wireSample _, lo :: hi :: _ => hi.toNat * 256 + lo.toNat
  | _, b :: _ => b.toNat
  | _, [] => 0

end Sys2Proof
end

