-- ==== Sys2Proof/Machine/Flags.lean ====
section
/-! DEFINITION. The block has no condition codes (10_state.md R31). Its status outputs are functions of the step: the
level `synced`, the ports of 60_exceptions.md R146, the codes of R140 and R150, the payload read port of 20_memory.md R43;
and the dispatch words of 30_encoding.md R66 and R68. -/

namespace Sys2Proof.Machine

/-- The level `synced` (R31). -/
def synced (s : State) : Bool := s.fstate == .synced

/-- `end_code[1:0]` (R146). -/
def EndCode.code : EndCode → BitVec 2
  | .none => 0#2
  | .accepted => 1#2
  | .rejectedOversize => 2#2
  | .rejectedCrc => 3#2

/-- The codes of R140. -/
def ErrorKind.code : ErrorKind → Nat
  | .frameSyncSearching => 0
  | .configurationError => 1
  | .oversizedLength => 2
  | .checksumMismatch => 3

/-- The error the latest step raised, if any (R142, R143). -/
def raisedError (s : State) : Option ErrorKind :=
  match s.endCode with
  | .rejectedOversize => some .oversizedLength
  | .rejectedCrc => some .checksumMismatch
  | .none | .accepted => none

/-- `FrameSyncSearching` holds whenever the framer searches (R140, R145): no error, no event. -/
def frameSyncSearching (s : State) : Bool := s.fstate == .searching

/-- `diag_code[2:0]` of an event; 0 for `PACKET` (R146). -/
def Event.diagCode : Event → BitVec 3
  | .packet _ _ => 0#3
  | .sync _ => 1#3
  | .length _ => 2#3
  | .oversize _ => 3#3
  | .crcMismatch _ _ => 4#3

/-- `diag_a[15:0]` of an event (R146). For `PACKET`, which is no diagnostic, R146 gives it no value: 0 is the model's DESIGN
CHOICE (log 25). -/
def Event.diagA : Event → Word
  | .packet _ _ => 0#16
  | .sync v => v
  | .length len => len.zeroExtend 16
  | .oversize len => len.zeroExtend 16
  | .crcMismatch received _ => received

/-- `diag_b[15:0]` of an event (R146). -/
def Event.diagB : Event → Word
  | .crcMismatch _ computed => computed
  | .packet _ _ | .sync _ | .length _ | .oversize _ => 0#16

/-- The event of the latest step; a step has at most one (R149), a wire pattern's last one is meant (log 21). -/
def lastEvent (s : State) : Option Event := s.events.getLast?

/-- `pkt_valid` (R146). -/
def pktValid (s : State) : Bool := (lastEvent s).any Event.isPacket

/-- `pkt_len[7:0]` (R146). In a step that emits no `PACKET` R146 gives it no value: 0 is the model's DESIGN CHOICE (log 25). -/
def pktLen (s : State) : Byte :=
  match lastEvent s with
  | some (.packet len _) => len
  | _ => 0#8

/-- `diag_valid` (R146). -/
def diagValid (s : State) : Bool := (lastEvent s).any fun e => !e.isPacket

/-- `diag_code[2:0]` (R146). -/
def diagCode (s : State) : BitVec 3 := (lastEvent s).elim 0#3 Event.diagCode

/-- `diag_a[15:0]` (R146). In a step that emits no diagnostic R146 gives it no value: 0 is the model's DESIGN CHOICE
(log 25). -/
def diagA (s : State) : Word := (lastEvent s).elim 0#16 Event.diagA

/-- `diag_b[15:0]` (R146). -/
def diagB (s : State) : Word := (lastEvent s).elim 0#16 Event.diagB

/-- `bit_valid` (R31). -/
def bitValid (s : State) : Bool := s.bitTap.isSome

/-- `bit_out` (R31). In a step that emits no bit R31 and R146 give it no value: 0 is the model's DESIGN CHOICE (log 25). -/
def bitOut (s : State) : Bit := s.bitTap.getD 0#1

/-- The combinational read port: `buf[pkt_rd_addr]` for addresses up to 253, else `0x00` (R43). No side effect. -/
def pktRdData (s : State) (pktRdAddr : Byte) : Byte :=
  if pktRdAddr.toNat < bufCap then bufRead s pktRdAddr.toNat else 0x00#8

/-- The dispatch word `cw[6:0] = {rst, sv, dec_last, synced, byte_last, as[1:0]}` (R66). -/
def dispatchWord (rst sv : Bool) (s : State) : BitVec 7 :=
  BitVec.ofBool rst ++ BitVec.ofBool sv ++ BitVec.ofBool (s.decCnt == 1) ++ BitVec.ofBool (s.fstate == .synced) ++
    BitVec.ofBool (s.bitCnt == 1#4) ++ s.astate.code

/-- The front end's word `fw = {rst, in_byte_valid, have_lo}` (R68). -/
def frontWord (rst inByteValid : Bool) (s : State) : BitVec 3 :=
  BitVec.ofBool rst ++ BitVec.ofBool inByteValid ++ BitVec.ofBool s.haveLo

end Sys2Proof.Machine
end

