-- ==== Sys2Proof/Machine/Fetch.lean ====
section
/-! DEFINITION. What a step is given: the input at the head of the list, the dispatch words made of it and of the state
(30_encoding.md R66, R68), and the instruction they decode to. And the converse, for the host: the state and input on
which a given table word is what the very next step runs (log 19). -/

namespace Sys2Proof.Machine

/-- The input of this step; with nothing left the ports are quiet and the step is `IDLE` (R97, R129, R136). -/
def currentInput (s : State) : Input := s.inputs.head?.getD ⟨false, .quiet⟩

/-- Taking the input: it is gone, whatever becomes of it (R45). -/
def consumeInput (s : State) : State := { s with inputs := s.inputs.tail }

/-- `sv` of R66: a sample on the port, or a byte that completes one. -/
def sampleArrives (s : State) : Bool :=
  match (currentInput s).port with
  | .quiet => false
  | .sample _ => true
  | .byte _ => s.haveLo

/-- The sample on the port; 0 when there is none (no operation that fires then reads it). -/
def portSample (s : State) : Word :=
  match (currentInput s).port with
  | .sample v => v
  | .quiet | .byte _ => 0#16

/-- The dispatch word of this step (R66). -/
def currentWord (s : State) : BitVec 7 := dispatchWord (currentInput s).rst (sampleArrives s) s

/-- The bytes this step decodes and the unit that reads them: the front end's word and byte when a byte is presented
(R68), else the dispatch word and the sample port. -/
def fetchImage (s : State) : BlockUnit × List Byte :=
  match (currentInput s).port with
  | .byte b => (.frontEnd, [0#5 ++ frontWord (currentInput s).rst true s, b])
  | .quiet | .sample _ => (.sequencer, cwByte (currentWord s) :: wordBytes (portSample s))

/-- The instruction of this step: `RESET`, `IDLE`, `SAMPLE` or `BYTE_IN` (R67, R68). Every word is one of them. -/
def fetch (s : State) : Instr :=
  match (currentInput s).port with
  | .byte b => decodeFw (frontWord (currentInput s).rst true s) b
  | .quiet | .sample _ => decodeCw (currentWord s) (portSample s)

/-! ### Placing a table word -/

/-- The next step is given the sample `b` with the threshold at 0, from which the bit `b` is sliced (R87, R92). -/
def withNextBit (b : Bit) (s : State) : State :=
  { s with
    decCnt := 1, threshold := 0#16
    inputs := ⟨false, .sample (b.zeroExtend 16)⟩ :: s.inputs }

/-- The next bit completes the byte `d` of a session whose assembler is in `a`. -/
def withNextByte (a : AState) (d : Byte) (s : State) : State :=
  withNextBit (d.extractLsb' 0 1)
    { s with fstate := .synced, bitCnt := 1#4, byteAcc := d >>> 1, astate := a }

/-- The next bit completes the pattern `w` in `sync_reg`. -/
def withNextSync (w : Word) (s : State) : State :=
  withNextBit (w.extractLsb' 0 1) { s with fstate := .searching, bitCnt := 8#4, syncReg := w >>> 1 }

/-- The registers a dispatch word is made of take the values that make it `cw` (R66). -/
def withControl (cw : BitVec 7) (s : State) : State :=
  { s with
    decCnt := if cw.getLsbD 4 then 1 else s.cfg.n
    fstate := if cw.getLsbD 3 then .synced else .searching
    bitCnt := if cw.getLsbD 2 then 1#4 else 8#4
    astate := AState.ofCode (cw.extractLsb' 0 2)
    byteAcc := 0x00#8 }

/-- The next step's dispatch word is `cw`, its sample and its sliced bit are 0. -/
def withDispatch (cw : BitVec 7) (s : State) : State :=
  let s := withControl cw s
  let s := if cw.getLsbD 4 then { s with threshold := 0#16 } else s
  { s with
    inputs := ⟨cw.getLsbD 6, if cw.getLsbD 5 then .sample 0#16 else .quiet⟩ :: s.inputs }

/-- The state and inputs on which the very next step runs the instruction `decodeTableWord nbits w` (log 19): for an
operation its dispatch word and operand 0, for a wire pattern the bit or byte that completes it. -/
def placeTableWord (nbits w : Nat) (s : State) : State :=
  match decodeTableWord nbits w with
  | none => s
  | some i =>
    match i with
    | .byteIn b => { s with haveLo := w % 2 == 1, inputs := ⟨false, .byte b⟩ :: s.inputs }
    | .wireSyncWord => withNextSync 0x2DAA#16 s
    | .wireSyncWordInv => withNextSync 0xD255#16 s
    | .wireLen l => withNextByte .awaitLength l s
    | .wireLenOversize => withNextByte .awaitLength 0xFF#8 s
    | .wirePayloadByte p => withNextByte .readPayload p s
    | .wireCrcHi c => withNextByte .readCrcHi c s
    | .wireCrcLo c => withNextByte .readCrcLo c s
    | .wireSample v =>
      { s with
        loByte := v.extractLsb' 0 8, haveLo := true
        inputs := ⟨false, .byte (v.extractLsb' 8 8)⟩ :: s.inputs }
    | .reset | .idle | .sample _ | .thrUpdate _ | .decimate | .slice _ | .syncShift _ | .sessionInit
    | .byteShift _ | .asmLength _ | .asmPayload _ | .asmCrcHi _ | .asmCrcLo _ | .crcUpdate _ _
    | .sessionEnd => withDispatch (BitVec.ofNat 7 w) s

end Sys2Proof.Machine
end

