-- ==== Sys2Proof/Machine/Step.lean ====
section
/-! DEFINITION. One step (44_pipeline_step.md R127): take the next input, decode its dispatch word, run the instruction.
Fetching and placing are in Fetch. -/

namespace Sys2Proof.Machine

/-- One step of the block: one input consumed, all its consequences committed (R45, R127). -/
def step (s : State) : Host.Outcome State Fault Refusal := exec (fetch s) (consumeInput s)

/-- `s` with the table word `w` where the next step runs it (log 19). -/
def State.withFetchWord (s : State) (nbits w : Nat) : State := placeTableWord nbits w s

end Sys2Proof.Machine
end

