-- ==== Sys2Proof/Machine/HostInterface.lean ====
section
/-! DEFINITION. What the host does (44_pipeline_step.md R139, 70_reset_and_hazards.md R161): the configuration check and
the start, and the stimulus notation of 30_encoding.md R73 and R74 as lists of inputs. -/

namespace Sys2Proof.Machine

/-- `cfg_ok(SAMPLE_RATE)` (R8). -/
def cfgOk (sampleRate : Nat) : Bool := sampleRate % bitRate == 0 && Nat.ble 2 (sampleRate / bitRate)

/-- `N = SAMPLE_RATE / 2000` (R7, R8). -/
def oversampling (sampleRate : Nat) : Nat := sampleRate / bitRate

/-- The host's start (R161): on a failed check it raises `ConfigurationError` and the block is never started (R141);
else `N`, `VERBOSE`, `CRC_SEED` (and `DIV_MODE`) are fixed and the block is reset. -/
def hostStart (sampleRate : Nat) (verbose : Bool) (crcSeed : Word) (divMode : DivMode) : Answer :=
  if cfgOk sampleRate then .next (State.resetWith ⟨oversampling sampleRate, verbose, crcSeed, divMode⟩)
  else .refused (.configurationError sampleRate)

/-! ### Stimulus notation (R73, R74) -/

/-- `rst` (R73). -/
def rstLine : Input := ⟨true, .quiet⟩
/-- `idle` (R73). -/
def idleLine : Input := ⟨false, .quiet⟩
/-- `s <v>` (R73). -/
def sampleLine (v : Word) : Input := ⟨false, .sample v⟩
/-- `y <hh>` (R73). -/
def byteLine (b : Byte) : Input := ⟨false, .byte b⟩

/-- The sample `+A` for a one, `−A` for a zero (R74). -/
def levelOf (amplitude : Nat) (b : Bit) : Word :=
  if b = 1#1 then BitVec.ofNat 16 amplitude else -BitVec.ofNat 16 amplitude

/-- `bit <b>` (R74): `N` samples of the bit's level. -/
def bitStimulus (n amplitude : Nat) (b : Bit) : List Input := List.replicate n (sampleLine (levelOf amplitude b))

/-- `bits <b1 b2 ...>` (R74). -/
def bitsStimulus (n amplitude : Nat) (bs : List Bit) : List Input := bs.flatMap (bitStimulus n amplitude)

/-- `byte <hh>` (R74): bit 7 first. -/
def byteStimulus (n amplitude : Nat) (d : Byte) : List Input := bitsStimulus n amplitude (msbFirst d)

/-- `sync` (R74). -/
def syncStimulus (n amplitude : Nat) : List Input := byteStimulus n amplitude 0x2D#8 ++ byteStimulus n amplitude 0xAA#8

/-- `isync` (R74). -/
def isyncStimulus (n amplitude : Nat) : List Input := byteStimulus n amplitude 0xD2#8 ++ byteStimulus n amplitude 0x55#8

/-- The checksum a frame carries: `C = 0xFFFF − crc_seq(CRC_SEED, [L] ++ P)` (R63). -/
def frameChecksum (seed : Word) (payload : List Byte) : Word :=
  complementChecksum (crcSeq seed (BitVec.ofNat 8 payload.length :: payload))

/-- The bytes of a frame: `[L, P bytes, CRC-hi, CRC-lo]` (R61). -/
def frameBytes (seed : Word) (payload : List Byte) : List Byte :=
  BitVec.ofNat 8 payload.length :: payload ++
    [(frameChecksum seed payload).extractLsb' 8 8, (frameChecksum seed payload).extractLsb' 0 8]

/-- `frame <p0 p1 ...>` (R74). -/
def frameStimulus (n amplitude : Nat) (seed : Word) (payload : List Byte) : List Input :=
  (frameBytes seed payload).flatMap (byteStimulus n amplitude)

/-- `packet <...>` (R74). -/
def packetStimulus (n amplitude : Nat) (seed : Word) (payload : List Byte) : List Input :=
  syncStimulus n amplitude ++ frameStimulus n amplitude seed payload

/-- `sample16 <v>` (R74). -/
def sample16Stimulus (v : Word) : List Input := [byteLine (sampleBytes v).1, byteLine (sampleBytes v).2]

end Sys2Proof.Machine
end

