-- ==== Sys2Proof/Safety.lean ====
section
/-! DEFINITION. The terms claims are made in: sequences of instructions, runs and their events (44_pipeline_step.md R135),
the invariant of a reachable state (10_state.md R33, R34; 43_packet_assembler.md R120, R124), and views of a state. -/

namespace Sys2Proof.Machine

/-- One answer after another: the second runs on what the first left, unless the first stopped. -/
def andThen (o : Answer) (k : State → Answer) : Answer :=
  match o with
  | .next s => k s
  | .fault f => .fault f
  | .refused r => .refused r

/-- Instructions one after another, stopping where one stops. -/
def execAll : List Instr → State → Answer
  | [], s => .next s
  | i :: is, s => andThen (exec i s) (execAll is)

/-- Apply `f` to the next state, if there is one. -/
def mapNext (f : State → State) (o : Answer) : Answer := andThen o fun s => .next (f s)

/-- The next state, if there is one. -/
def nextState? (o : Answer) : Option State :=
  match o with
  | .next s => some s
  | .fault _ | .refused _ => none

/-- A run of `k` steps: the final state and the steps' events in step order (R135). Nothing if a step stops. -/
def runEvents : Nat → State → Option (State × List Event)
  | 0, s => some (s, [])
  | k + 1, s =>
    match step s with
    | .next t => (runEvents k t).map fun r => (r.1, t.events ++ r.2)
    | .fault _ | .refused _ => none

/-- The first `k` bytes of the payload buffer. -/
def payloadPrefix (s : State) (k : Nat) : List Byte := (List.range k).map (bufRead s)

/-- The clauses of R34 that bind the assembler's registers while `fstate = SYNCED`. -/
def SessionRanges (s : State) : Prop :=
  match s.astate with
  | .awaitLength => s.offset = 0#8 ∧ s.crcAcc = s.cfg.crcSeed ∧ s.rxCrc = 0#16
  | .readPayload =>
    1 ≤ s.length.toNat ∧ s.length.toNat ≤ maxLen ∧ s.offset.toNat < s.length.toNat ∧ s.rxCrc = 0#16
  | .readCrcHi => s.length.toNat ≤ maxLen ∧ s.offset = s.length ∧ s.rxCrc = 0#16
  | .readCrcLo => s.length.toNat ≤ maxLen ∧ s.offset = s.length ∧ s.rxCrc.extractLsb' 0 8 = 0#8

/-- R120 and R124 at every point of a session after its length byte: the accumulator covers the length byte and the
bytes stored so far, and each of those was written. -/
def SessionCoverage (s : State) : Prop :=
  s.astate ≠ .awaitLength →
    s.crcAcc = crcSeq s.cfg.crcSeed (s.length :: payloadPrefix s s.offset.toNat) ∧
    ∀ k, k < s.offset.toNat → (Memory.read? s.buf k).isSome = true

/-- The invariant of every state reachable from reset (R33, R34, R120, R124). -/
structure BlockInvariant (s : State) : Prop where
  /-- R7: `N ≥ 2`. -/
  configured : 2 ≤ s.cfg.n
  /-- R34: `1 ≤ dec_cnt ≤ N`. -/
  decCnt_pos : 1 ≤ s.decCnt
  decCnt_le : s.decCnt ≤ s.cfg.n
  /-- R34: `1 ≤ bit_cnt ≤ 8`. -/
  bitCnt_pos : 1 ≤ s.bitCnt.toNat
  bitCnt_le : s.bitCnt.toNat ≤ 8
  /-- R34: `offset ≤ 254`. -/
  offset_le : s.offset.toNat ≤ maxLen
  /-- R34: `fstate = SEARCHING` gives `bit_cnt = 8`. -/
  searching_bitCnt : s.fstate = .searching → s.bitCnt = 8#4
  /-- R33 (a): the payload length never exceeds 254. -/
  length_le : s.astate ≠ .awaitLength → s.length.toNat ≤ maxLen
  /-- R34, while `SYNCED`. -/
  ranges : s.fstate = .synced → SessionRanges s
  /-- R120, R124, while `SYNCED`. -/
  coverage : s.fstate = .synced → SessionCoverage s
  /-- The payload buffer is in its canonical form and inside its 254 addresses (R40, R42). -/
  buffer : Memory.wf s.buf = true

/-- Just after a sync acquisition (R102, R103): the next bit is bit 7 of the length byte. -/
structure SessionStart (s : State) : Prop where
  fstate : s.fstate = .synced
  bitCnt : s.bitCnt = 8#4
  astate : s.astate = .awaitLength
  offset : s.offset = 0#8
  crcAcc : s.crcAcc = s.cfg.crcSeed
  rxCrc : s.rxCrc = 0#16

/-- The operation `BYTE` calls (R113, R132), on `astate` read before the step. -/
def assemblerOperation : AState → Byte → Instr
  | .awaitLength, d => .asmLength d
  | .readPayload, d => .asmPayload d
  | .readCrcHi, d => .asmCrcHi d
  | .readCrcLo, d => .asmCrcLo d

/-- The operation `BIT` calls (R99, R131), on `fstate` read before the step. -/
def framerOperation : FState → Bit → Instr
  | .searching, b => .syncShift b
  | .synced, b => .byteShift b

/-- The instructions that stand for a frame on the bit stream (R61). -/
def frameInstrs (len : Byte) (payload : List Byte) (crcHi crcLo : Byte) : List Instr :=
  .wireLen len :: payload.map .wirePayloadByte ++ [.wireCrcHi crcHi, .wireCrcLo crcLo]

/-- The wire patterns. -/
def isWirePattern : Instr → Bool
  | .wireSyncWord | .wireSyncWordInv | .wireLen _ | .wireLenOversize | .wirePayloadByte _ | .wireCrcHi _
  | .wireCrcLo _ | .wireSample _ => true
  | .reset | .idle | .sample _ | .thrUpdate _ | .decimate | .slice _ | .syncShift _ | .sessionInit
  | .byteShift _ | .asmLength _ | .asmPayload _ | .asmCrcHi _ | .asmCrcLo _ | .crcUpdate _ _ | .sessionEnd
  | .byteIn _ => false

/-- The instructions a step can be (R67, R68). -/
def isStepKind : Instr → Bool
  | .reset | .idle | .sample _ | .byteIn _ => true
  | .thrUpdate _ | .decimate | .slice _ | .syncShift _ | .sessionInit | .byteShift _ | .asmLength _
  | .asmPayload _ | .asmCrcHi _ | .asmCrcLo _ | .crcUpdate _ _ | .sessionEnd | .wireSyncWord | .wireSyncWordInv
  | .wireLen _ | .wireLenOversize | .wirePayloadByte _ | .wireCrcHi _ | .wireCrcLo _ | .wireSample _ => false

/-- The state as it would be had `VERBOSE` been 0 (R147). -/
def silenced (s : State) : State :=
  { s with cfg := { s.cfg with verbose := false }, events := s.events.filter Event.isPacket }

/-- The sync register after some bits. -/
def syncAfter (reg : Word) (bs : List Bit) : Word := bs.foldl shiftIntoSync reg

/-- No proper prefix of the pattern `w`, shifted into `reg`, completes a sync word (the premise of R111). -/
def NoEarlyMatch (reg w : Word) : Prop :=
  ∀ k, 1 ≤ k → k < 16 → isSyncWord (syncAfter reg ((msbFirst w).take k)) = false

end Sys2Proof.Machine
end

