-- ==== Sys2Proof/Certificates/Slice0/Obligations.lean ====
section
/-! DEFINITION. The statements for the provers, listed in OBLIGATIONS.json. Rules are those of spec/; D and U entries are
those of 92_eei_decisions.md and 93_implementation_defined.md; "log n" is notes/assumptions/n.md. -/

open Sys2Proof Sys2Proof.Machine

/-! ### Encoding -/

/-- Decoding an encoded well-formed instruction gives it back, with whatever bytes follow (30_encoding.md R57 to R69;
the byte layout of operands is the model's, log 11). -/
def Obligations.DecodeEncodeRoundTrip : Prop :=
  ∀ (i : Instr) (rest : List Byte), i.WellFormed →
    decode (encode i).1 ((encode i).2 ++ rest) = .ok (i, rest)

/-- Words written out from R58, R60, R67 and R68 decode to the instructions they stand for. -/
def Obligations.WrittenWordsDecode : Prop :=
  decode .sequencer [0b01000000#8] = .ok (.reset, []) ∧
  decode .sequencer [0b00100000#8, 0x18#8, 0xFC#8] = .ok (.sample (BitVec.ofInt 16 (-1000)), []) ∧
  decode .framer [0b00111000#8, 0b00000001#8] = .ok (.byteShift 1#1, []) ∧
  decode .assembler [0b00111101#8, 0x41#8] = .ok (.asmPayload 0x41#8, []) ∧
  decode .frontEnd [0b00000011#8, 0x03#8] = .ok (.byteIn 0x03#8, []) ∧
  decode .syncWindow [0b00101101#8, 0b10101010#8] = .ok (.wireSyncWord, []) ∧
  decode .syncWindow [0b11010010#8, 0b01010101#8] = .ok (.wireSyncWordInv, []) ∧
  decode .lenField [0b11111111#8] = .ok (.wireLenOversize, []) ∧
  decode .sampleFormat [0xE8#8, 0x03#8] = .ok (.wireSample (BitVec.ofInt 16 1000), [])

/-- R69: on every one of the 128 dispatch words and for all operand bytes each unit reads its operation exactly when the
word's bits are the pattern's (`SESSION_INIT` and `SESSION_END` up to their data conditions, which R69 puts inside
`SYNC_SHIFT` and `BYTE_SHIFT`). That a word is read for one unit of the block, and where its operand bytes stand, are the
model's choices (logs 10 and 11). -/
def Obligations.OperationsFireByTheirPatterns : Prop :=
  ∀ (cw : BitVec 7) (lo hi : Byte) (b : Bit),
    let rst := cw.getLsbD 6
    let sv := cw.getLsbD 5
    let decLast := cw.getLsbD 4
    let synced := cw.getLsbD 3
    let byteLast := cw.getLsbD 2
    let sample := rst = false ∧ sv = true
    let bit := sample ∧ decLast = true
    let byte := bit ∧ synced = true ∧ byteLast = true
    let as := cw.extractLsb' 0 2
    (decode .sequencer [cwByte cw, lo, hi] = .ok (.reset, [lo, hi]) ↔ rst = true) ∧
    (decode .sequencer [cwByte cw, lo, hi] = .ok (.idle, [lo, hi]) ↔ rst = false ∧ sv = false) ∧
    (decode .sequencer [cwByte cw, lo, hi] = .ok (.sample (hi ++ lo), []) ↔ sample) ∧
    (decode .threshold [cwByte cw, lo, hi] = .ok (.thrUpdate (hi ++ lo), []) ↔ sample) ∧
    (decode .decimator [cwByte cw] = .ok (.decimate, []) ↔ sample) ∧
    (decode .slicer [cwByte cw, lo, hi] = .ok (.slice (hi ++ lo), []) ↔ bit) ∧
    (decode .framer [cwByte cw, bitByte b] = .ok (.syncShift b, []) ↔ bit ∧ synced = false) ∧
    (decode .sessionStart [cwByte cw] = .ok (.sessionInit, []) ↔ bit ∧ synced = false) ∧
    (decode .framer [cwByte cw, bitByte b] = .ok (.byteShift b, []) ↔ bit ∧ synced = true) ∧
    (decode .assembler [cwByte cw, lo] = .ok (.asmLength lo, []) ↔ byte ∧ as = 0b00#2) ∧
    (decode .assembler [cwByte cw, lo] = .ok (.asmPayload lo, []) ↔ byte ∧ as = 0b01#2) ∧
    (decode .assembler [cwByte cw, lo] = .ok (.asmCrcHi lo, []) ↔ byte ∧ as = 0b10#2) ∧
    (decode .assembler [cwByte cw, lo] = .ok (.asmCrcLo lo, []) ↔ byte ∧ as = 0b11#2) ∧
    (decode .crcEngine [cwByte cw, hi, lo, hi] = .ok (.crcUpdate (hi ++ lo) hi, []) ↔
      byte ∧ (as = 0b00#2 ∨ as = 0b01#2)) ∧
    (decode .sessionStop [cwByte cw] = .ok (.sessionEnd, []) ↔ byte)

/-! ### The step -/

/-- R127: when the dispatch word and port bytes of this step decode to `i`, the step is `exec i` on the state with the
input taken; nothing else happens around it. -/
def Obligations.StepRunsDecodedInstruction : Prop :=
  ∀ (s : State) (i : Instr) (rest : List Byte),
    decode (fetchImage s).1 (fetchImage s).2 = .ok (i, rest) → step s = exec i (consumeInput s)

/-- R66 to R68, R128: which instruction a step is. `rst` has priority over every other input; with nothing presented,
or nothing left to present, the step is `IDLE`. What is fetched is what the dispatch words decode to. -/
def Obligations.DispatchWordsSelectTheStepKind : Prop :=
  ∀ s : State,
    (∃ rest, decode (fetchImage s).1 (fetchImage s).2 = .ok (fetch s, rest)) ∧
    (s.inputs = [] → fetch s = .idle) ∧
    ∀ (inp : Input) (rest : List Input), s.inputs = inp :: rest →
      (inp.rst = true → fetch s = .reset) ∧
      (inp.rst = false → inp.port = .quiet → fetch s = .idle) ∧
      (∀ v, inp.rst = false → inp.port = .sample v → fetch s = .sample v) ∧
      (∀ b, inp.rst = false → inp.port = .byte b → fetch s = .byteIn b)

/-- R67, R133: `SAMPLE` is the operations R67's row for this step's dispatch word lists, run one after another, the
sliced bit being `sample > threshold'`. -/
def Obligations.SampleRunsTheOperationMap : Prop :=
  ∀ (s : State) (v : Word), 2 ≤ s.cfg.n →
    exec (.sample v) s =
      execAll (operationMap (dispatchWord false true s) v (slicedBit v (nextThreshold s.cfg v s.threshold)))
        (beginStep s)

/-- R130: `SAMPLE(s)` is `THR_UPDATE(s)`, `DECIMATE()`, and at a boundary `SLICE(s)` and the framer's operation on the
bit of the tap. -/
def Obligations.SampleComposesItsOperations : Prop :=
  ∀ (s : State) (v : Word),
    exec (.sample v) s =
      andThen (exec (.thrUpdate v) (beginStep s)) fun s1 =>
      andThen (exec .decimate s1) fun s2 =>
        if s2.boundary then
          andThen (exec (.slice v) s2) fun s3 => exec (framerOperation s3.fstate (bitOut s3)) s3
        else .next s2

/-- R130's corner case: a non-boundary sample completes and touches `threshold` and `dec_cnt` only, and no event, code
or bit leaves the block. -/
def Obligations.NonBoundarySampleTouchesSlicerOnly : Prop :=
  ∀ (s : State) (v : Word), 2 ≤ s.cfg.n → 2 ≤ s.decCnt →
    exec (.sample v) s =
      .next { s with
        threshold := nextThreshold s.cfg v s.threshold, decCnt := s.decCnt - 1
        events := [], endCode := .none, bitTap := none, boundary := false, ended := false, crcOut := none }

/-! ### Reset, idle, configuration -/

/-- R128 with the table of R37: `RESET` completes in every state, loads the table, keeps `buf`, emits nothing. The table's
values other than `dec_cnt` and `fstate` are the spec's decisions D3 and D8 to D11 (log 4). -/
def Obligations.ResetLoadsTheResetTable : Prop :=
  ∀ s : State, 2 ≤ s.cfg.n →
    exec .reset s = .next { State.resetWith s.cfg with buf := s.buf, inputs := s.inputs }

/-- R37: the values after reset, for every configuration, and of the machine's own reset state (whose configuration is
the model's choice, log 2). The buffer lists nothing: every byte is the free value (U5, log 5). -/
def Obligations.ResetStateHoldsTheTable : Prop :=
  (∀ c : Config,
    let s := State.resetWith c
    s.cfg = c ∧ s.loByte = 0x00#8 ∧ s.haveLo = false ∧ s.threshold = 0#16 ∧ s.decCnt = c.n ∧
    s.fstate = .searching ∧ s.syncReg = 0x0000#16 ∧ s.byteAcc = 0x00#8 ∧ s.bitCnt = 8#4 ∧
    s.astate = .awaitLength ∧ s.length = 0#8 ∧ s.offset = 0#8 ∧ s.crcAcc = c.crcSeed ∧ s.rxCrc = 0x0000#16 ∧
    ∀ a, bufRead s a = Config.unwrittenByte a) ∧
  State.reset = State.resetWith Config.default

/-- R129 (decision D2): `IDLE` completes in every state and changes nothing; the step's outputs are empty. -/
def Obligations.IdleChangesNothing : Prop :=
  ∀ s : State, 2 ≤ s.cfg.n →
    exec .idle s =
      .next { s with events := [], endCode := .none, bitTap := none, boundary := false, ended := false, crcOut := none }

/-- R8: `cfg_ok` is `SAMPLE_RATE mod 2000 = 0 and SAMPLE_RATE / 2000 ≥ 2`; then `N = SAMPLE_RATE / 2000`; when it fails
the host's start gives no running block; with R8's examples. -/
def Obligations.ConfigurationCheck : Prop :=
  (∀ rate : Nat, cfgOk rate = true ↔ rate % 2000 = 0 ∧ 2 ≤ rate / 2000) ∧
  (∀ rate : Nat, cfgOk rate = true → oversampling rate = rate / 2000) ∧
  (∀ (rate : Nat) (verbose : Bool) (seed : Word) (mode : DivMode) (s : State),
    cfgOk rate = false → hostStart rate verbose seed mode ≠ .next s) ∧
  (cfgOk 4000 = true ∧ oversampling 4000 = 2) ∧ (cfgOk 8000 = true ∧ oversampling 8000 = 4) ∧
  (cfgOk 48000 = true ∧ oversampling 48000 = 24) ∧
  cfgOk 3000 = false ∧ cfgOk 2000 = false ∧ cfgOk 0 = false ∧ cfgOk 2001 = false

/-- R141, R161 (decision D19, U3): a rate that fails the check raises `ConfigurationError` with that rate and no block is
started; any other starts the block in its reset state with `N ≥ 2`. Where `N < 2` all the same, no instruction has a
meaning: every one is refused by name. -/
def Obligations.InvalidConfigurationIsRefused : Prop :=
  (∀ (rate : Nat) (verbose : Bool) (seed : Word) (mode : DivMode),
    (cfgOk rate = false → hostStart rate verbose seed mode = .refused (.configurationError rate)) ∧
    (cfgOk rate = true →
      hostStart rate verbose seed mode = .next (State.resetWith ⟨rate / 2000, verbose, seed, mode⟩) ∧
      2 ≤ rate / 2000)) ∧
  ∀ (i : Instr) (s : State), s.cfg.n < 2 → exec i s = .refused (.oversamplingBelowTwo s.cfg.n)

/-- R16, R171: no instruction changes the configuration. -/
def Obligations.NoInstructionChangesTheConfiguration : Prop :=
  ∀ (i : Instr) (s t : State), exec i s = .next t → t.cfg = s.cfg

/-! ### Bit Slicer -/

/-- R87 with R88 and R89: `THR_UPDATE` completes, the new threshold is EXACTLY the rounded quotient as an integer (it
always fits 16 bits), and nothing else changes. Rounding toward zero is decision D6; `DIV_MODE` covers both. -/
def Obligations.ThresholdIsTheRoundedMean : Prop :=
  ∀ (s : State) (v : Word), 2 ≤ s.cfg.n →
    ∃ t : State, exec (.thrUpdate v) s = .next t ∧ t = { s with threshold := t.threshold } ∧
      t.threshold.toInt =
        match s.cfg.divMode with
        | .towardZero => Int.tdiv (v.toInt + (8 * (s.cfg.n : Int) - 1) * s.threshold.toInt) (8 * s.cfg.n)
        | .floor => Int.fdiv (v.toInt + (8 * (s.cfg.n : Int) - 1) * s.threshold.toInt) (8 * s.cfg.n)

/-- R89: `min(s, threshold) ≤ threshold' ≤ max(s, threshold)`. -/
def Obligations.ThresholdStaysBetween : Prop :=
  ∀ (s t : State) (v : Word), exec (.thrUpdate v) s = .next t →
    min v.toInt s.threshold.toInt ≤ t.threshold.toInt ∧ t.threshold.toInt ≤ max v.toInt s.threshold.toInt

/-- R96 (b), (c), for rounding toward zero: with `e = s − threshold`, the dead zone away from zero, and toward zero the
threshold always moves. -/
def Obligations.ThresholdDeadZone : Prop :=
  ∀ (s t : State) (v : Word), s.cfg.divMode = .towardZero → exec (.thrUpdate v) s = .next t →
    let th := s.threshold.toInt
    let e := v.toInt - th
    let k := 8 * (s.cfg.n : Int)
    (0 ≤ th → 0 ≤ e → e < k → t.threshold = s.threshold) ∧
    (th ≤ 0 → -k < e → e ≤ 0 → t.threshold = s.threshold) ∧
    (0 < th → e < 0 → t.threshold.toInt ≤ th - 1) ∧
    (th < 0 → 0 < e → th + 1 ≤ t.threshold.toInt)

/-- R91: `DECIMATE` counts down; at 1, where the next value would be below 1, it reloads `N` and reports a boundary. The
premise is the counter's range (R19). -/
def Obligations.DecimateCountsDownAndReloads : Prop :=
  ∀ s : State, 2 ≤ s.cfg.n → 1 ≤ s.decCnt →
    (s.decCnt = 1 → exec .decimate s = .next { s with decCnt := s.cfg.n, boundary := true }) ∧
    (s.decCnt ≠ 1 → exec .decimate s = .next { s with decCnt := s.decCnt - 1, boundary := false }) ∧
    ∀ t, exec .decimate s = .next t → t.decCnt ≠ 0

/-- R92: `SLICE` completes and the tap shows `1` exactly when the sample is greater than the threshold, signed and strict
(true is `1` by decision D22); nothing else changes. Corners: equality and `−32768` give `0`. -/
def Obligations.SliceComparesSignedAndStrict : Prop :=
  ∀ (s : State) (v : Word), 2 ≤ s.cfg.n →
    (s.threshold.toInt < v.toInt → exec (.slice v) s = .next { s with bitTap := some 1#1 }) ∧
    (v.toInt ≤ s.threshold.toInt → exec (.slice v) s = .next { s with bitTap := some 0#1 }) ∧
    (v = s.threshold ∨ v = 0x8000#16 → exec (.slice v) s = .next { s with bitTap := some 0#1 })

/-- R92's corner case (rounding toward zero): comparing with the old threshold instead of the just-updated one gives a
different bit exactly when `threshold = s − 1` and `s ≤ 0`. -/
def Obligations.OldThresholdSlicesDifferently : Prop :=
  ∀ (s t : State) (v : Word), s.cfg.divMode = .towardZero → exec (.thrUpdate v) s = .next t →
    ((s.threshold.toInt < v.toInt ↔ ¬ t.threshold.toInt < v.toInt) ↔
      s.threshold.toInt = v.toInt - 1 ∧ v.toInt ≤ 0)

/-- R95, the two-level lemma, for either rounding: with every sample `+A` or `−A` the threshold stays in `−A .. A − 1`,
and the sliced bit is the sample's sign. -/
def Obligations.TwoLevelSignalIsSlicedExactly : Prop :=
  ∀ (s t : State) (a : Nat) (b : Bit), 1 ≤ a → a ≤ 32767 →
    -(a : Int) ≤ s.threshold.toInt → s.threshold.toInt ≤ (a : Int) - 1 →
    exec (.thrUpdate (levelOf a b)) s = .next t →
      (-(a : Int) ≤ t.threshold.toInt ∧ t.threshold.toInt ≤ (a : Int) - 1) ∧
      exec (.slice (levelOf a b)) t = .next { t with bitTap := some b }

/-- R33 (c): the threshold update happens on every sample, at a boundary or not, in every framer state. -/
def Obligations.EverySampleUpdatesTheThreshold : Prop :=
  ∀ (s t u : State) (v : Word), exec (.sample v) s = .next t → exec (.thrUpdate v) s = .next u →
    t.threshold = u.threshold

/-- R86 (decision D3): a low byte is latched and nothing else changes; a high byte completes the little-endian sample,
and the step is `SAMPLE` of it with the latch emptied and `lo_byte` kept. -/
def Obligations.ByteInPairsLittleEndian : Prop :=
  ∀ (s : State) (b : Byte), 2 ≤ s.cfg.n →
    (s.haveLo = false →
      exec (.byteIn b) s =
        .next { s with
          loByte := b, haveLo := true
          events := [], endCode := .none, bitTap := none, boundary := false, ended := false, crcOut := none }) ∧
    (s.haveLo = true → exec (.byteIn b) s = exec (.sample (b ++ s.loByte)) { s with haveLo := false })

/-- R134: two bytes through the front end do what the sample they encode does, the latch apart. -/
def Obligations.BytePairIsItsSample : Prop :=
  ∀ (s : State) (v : Word), 2 ≤ s.cfg.n → s.haveLo = false →
    execAll [.byteIn (v.extractLsb' 0 8), .byteIn (v.extractLsb' 8 8)] s =
      exec (.sample v) { s with loByte := v.extractLsb' 0 8 } ∧
    exec (.wireSample v) s = exec (.sample v) { s with loByte := v.extractLsb' 0 8 } ∧
    (2 ≤ s.decCnt → ∃ t, exec (.wireSample v) s = .next t ∧ t.haveLo = false ∧ t.decCnt = s.decCnt - 1)

/-! ### CRC Engine -/

/-- R80, R81: `CRC_UPDATE` completes, gives its caller the value of R80 and writes no register. The value: the byte
XORed into bits 15:8 (decision D23), then eight times shift left and XOR `0x1021` if the bit shifted out was 1. -/
def Obligations.CrcUpdateIsEightShifts : Prop :=
  ∀ (s : State) (crc : Word) (d : Byte), 2 ≤ s.cfg.n →
    exec (.crcUpdate crc d) s =
      .next { s with
        crcOut := some ((List.range 8).foldl
          (fun c _ => if c.msb then (c <<< 1) ^^^ 0x1021#16 else c <<< 1) (crc ^^^ (d.zeroExtend 16 <<< 8))) }

/-- R84: check values, the published ones among them; R82: the fold. -/
def Obligations.CrcCheckValues : Prop :=
  let digits : List Byte := [0x31#8, 0x32#8, 0x33#8, 0x34#8, 0x35#8, 0x36#8, 0x37#8, 0x38#8, 0x39#8]
  crcSeq 0x0000#16 digits = 0x31C3#16 ∧ crcSeq 0xFFFF#16 digits = 0x29B1#16 ∧ crcSeq 0x1D0F#16 digits = 0xE5CC#16 ∧
  crcByte 0x0000#16 0x01#8 = 0x1021#16 ∧ crcByte 0x8000#16 0x00#8 = 0x9188#16 ∧ crcByte 0xFFFF#16 0x00#8 = 0xE1F0#16

/-- R83 (c): two byte sequences of equal length that differ in exactly one position have different `crc_seq` from the
same seed. -/
def Obligations.OneWrongByteChangesTheCrc : Prop :=
  ∀ (seed : Word) (front back : List Byte) (d e : Byte), d ≠ e →
    crcSeq seed (front ++ d :: back) ≠ crcSeq seed (front ++ e :: back)

/-! ### Sync/Framer -/

/-- R100, R101: `SYNC_SHIFT` completes; the register takes the bit in bit 0; on exactly `0x2DAA` or `0xD255` the framer is
`SYNCED`, the bit counter 8, the session initialised and `SYNC` emitted behind `VERBOSE`; else nothing more. -/
def Obligations.SyncShiftMatchesExactly : Prop :=
  ∀ (s : State) (b : Bit), 2 ≤ s.cfg.n →
    let reg : Word := s.syncReg.extractLsb' 0 15 ++ b
    (reg = 0x2DAA#16 ∨ reg = 0xD255#16 →
      exec (.syncShift b) s =
        .next { s with
          syncReg := reg, fstate := .synced, bitCnt := 8#4
          astate := .awaitLength, offset := 0#8, crcAcc := s.cfg.crcSeed, rxCrc := 0x0000#16
          events := s.events ++ if s.cfg.verbose then [.sync reg] else [] }) ∧
    (reg ≠ 0x2DAA#16 → reg ≠ 0xD255#16 → exec (.syncShift b) s = .next { s with syncReg := reg })

/-- R102: `SESSION_INIT` completes and writes `astate`, `offset`, `crc_acc` and `rx_crc`, nothing else; every sync
acquisition leaves its values; and no operation but it, those that call it and `RESET` seeds `crc_acc`: any other leaves the
accumulator or updates it by a byte. -/
def Obligations.SessionInitWritesFourRegisters : Prop :=
  (∀ s : State, 2 ≤ s.cfg.n →
    exec .sessionInit s =
      .next { s with astate := .awaitLength, offset := 0#8, crcAcc := s.cfg.crcSeed, rxCrc := 0x0000#16 }) ∧
  (∀ (s t : State) (b : Bit), s.fstate = .searching → exec (.syncShift b) s = .next t → t.fstate = .synced →
    t.astate = .awaitLength ∧ t.offset = 0#8 ∧ t.crcAcc = s.cfg.crcSeed ∧ t.rxCrc = 0x0000#16) ∧
  ∀ (i : Instr) (s t : State), exec i s = .next t →
    (match i with
     | .reset | .sessionInit | .syncShift _ | .sample _ | .byteIn _ | .wireSyncWord | .wireSyncWordInv | .wireLen _
     | .wireLenOversize | .wirePayloadByte _ | .wireCrcHi _ | .wireCrcLo _ | .wireSample _ => False
     | .idle | .thrUpdate _ | .decimate | .slice _ | .byteShift _ | .asmLength _ | .asmPayload _ | .asmCrcHi _
     | .asmCrcLo _ | .crcUpdate _ _ | .sessionEnd => True) →
    t.crcAcc = s.crcAcc ∨ ∃ d : Byte, t.crcAcc = crcByte s.crcAcc d

/-- R104, R113: `BYTE_SHIFT` shifts most significant bit first; before the eighth bit it counts down; on it, it reloads 8,
runs the assembler operation of `astate` on the completed byte, and `SESSION_END` if that one ended the session. A count of
0, which no run has (R34), goes down to 15: that the count is modulo 16 is the model's choice (log 15). -/
def Obligations.ByteShiftDeliversEveryEighthBit : Prop :=
  ∀ (s : State) (b : Bit), 2 ≤ s.cfg.n →
    let acc : Byte := s.byteAcc.extractLsb' 0 7 ++ b
    (s.bitCnt ≠ 1#4 → exec (.byteShift b) s = .next { s with byteAcc := acc, bitCnt := s.bitCnt - 1#4 }) ∧
    (s.bitCnt = 1#4 →
      exec (.byteShift b) s =
        andThen (exec (assemblerOperation s.astate acc) { s with byteAcc := acc, bitCnt := 8#4 }) fun t =>
          if t.ended then exec .sessionEnd t else .next t)

/-- R106: `SESSION_END` completes and writes `fstate` only; `sync_reg` and the assembler's registers are kept. `ended` is
1 after `ASM_LENGTH` on 255 and after every `ASM_CRC_LO`, with the `end_code` of that outcome, and after no other assembler
operation; the bit that ends a session is not shifted into `sync_reg`. -/
def Obligations.SessionEndWritesFstateOnly : Prop :=
  (∀ s : State, 2 ≤ s.cfg.n → exec .sessionEnd s = .next { s with fstate := .searching }) ∧
  (∀ (s t : State) (d : Byte),
    (exec (.asmLength d) s = .next t →
      (t.ended = true ↔ d = 0xFF#8) ∧ (d = 0xFF#8 → t.endCode = .rejectedOversize)) ∧
    (exec (.asmPayload d) s = .next t → t.ended = false) ∧
    (exec (.asmCrcHi d) s = .next t → t.ended = false) ∧
    (exec (.asmCrcLo d) s = .next t → t.ended = true ∧ (t.endCode = .accepted ∨ t.endCode = .rejectedCrc))) ∧
  ∀ (s t : State) (b : Bit), exec (.byteShift b) s = .next t → t.syncReg = s.syncReg

/-- R111: with the framer `SEARCHING` and no earlier match among the pattern's bits, the pattern's 15th bit leaves it
`SEARCHING` and its 16th makes it `SYNCED`, with the bit counter 8 and the session fresh; either sync word (R108: the
complemented one selects nothing else). `SYNC` is emitted behind the gate of R147. That the wire pattern's instruction is
its bits received is the model's choice (log 12). -/
def Obligations.SyncPatternAcquires : Prop :=
  ∀ (s : State) (w : Word), 2 ≤ s.cfg.n → s.fstate = .searching → NoEarlyMatch s.syncReg w →
    w = 0x2DAA#16 ∨ w = 0xD255#16 →
    (receiveBits ((msbFirst w).take 15) (beginStep s)).fstate = .searching ∧
    exec (if w = 0x2DAA#16 then .wireSyncWord else .wireSyncWordInv) s =
      .next { beginStep s with
        syncReg := w, fstate := .synced, bitCnt := 8#4
        astate := .awaitLength, offset := 0#8, crcAcc := s.cfg.crcSeed, rxCrc := 0x0000#16
        events := if s.cfg.verbose then [.sync w] else [] }

/-- R107 (conflict C1): while `SYNCED`, no bit shifts or compares `sync_reg`. -/
def Obligations.SyncRegisterIsFrozenWhileSynced : Prop :=
  ∀ (s t : State), s.fstate = .synced →
    (∀ v, exec (.sample v) s = .next t → t.syncReg = s.syncReg) ∧
    (∀ b, exec (.byteIn b) s = .next t → t.syncReg = s.syncReg) ∧
    (∀ b, exec (.byteShift b) s = .next t → t.syncReg = s.syncReg)

/-- R109: from `sync_reg = 0x0000` no match in the first 13 bits; from a stale sync word no match in the first 14. -/
def Obligations.EarliestMatches : Prop :=
  ∀ (s : State) (bs : List Bit), s.fstate = .searching →
    (s.syncReg = 0x0000#16 ∧ bs.length ≤ 13 ∨
      (s.syncReg = 0x2DAA#16 ∨ s.syncReg = 0xD255#16) ∧ bs.length ≤ 14) →
    receiveBits bs s = { s with syncReg := syncAfter s.syncReg bs }

/-! ### Packet Assembler -/

/-- R114: `ASM_LENGTH` completes on every byte. A legal length is stored, covered by the CRC and declared; 0 skips the
payload. 255 ends the session with no `LENGTH` (decision D14), `astate` staying. -/
def Obligations.LengthByteIsAcceptedOrOversize : Prop :=
  ∀ (s : State) (d : Byte), 2 ≤ s.cfg.n →
    (d ≠ 0xFF#8 →
      exec (.asmLength d) s =
        .next { s with
          length := d, crcAcc := crcByte s.crcAcc d, crcOut := some (crcByte s.crcAcc d)
          astate := if d = 0#8 then .readCrcHi else .readPayload, ended := false
          events := s.events ++ if s.cfg.verbose then [.length d] else [] }) ∧
    (d = 0xFF#8 →
      exec (.asmLength d) s =
        .next { s with
          length := d, crcAcc := crcByte s.crcAcc d, crcOut := some (crcByte s.crcAcc d)
          endCode := .rejectedOversize, ended := true
          events := s.events ++ if s.cfg.verbose then [.oversize d] else [] })

/-- R142: `OversizedLength`. The bit that completes a length byte 255 ends the session in that step: everything the rule
lists, and no payload byte is taken. -/
def Obligations.OversizedLengthEndsTheSession : Prop :=
  ∀ (s : State) (b : Bit), 2 ≤ s.cfg.n → s.astate = .awaitLength → s.bitCnt = 1#4 →
    (s.byteAcc.extractLsb' 0 7 ++ b : Byte) = 0xFF#8 →
    exec (.byteShift b) s =
      .next { s with
        byteAcc := 0xFF#8, bitCnt := 8#4, length := 0xFF#8
        crcAcc := crcByte s.crcAcc 0xFF#8, crcOut := some (crcByte s.crcAcc 0xFF#8)
        endCode := .rejectedOversize, ended := true, fstate := .searching
        events := s.events ++ if s.cfg.verbose then [.oversize 0xFF#8] else [] }

/-- R115: `ASM_PAYLOAD` completes: the byte is stored at `offset` and read back there, every other address reads as
before, the accumulator takes the byte, `offset` goes up by one, and the `L`-th byte moves on to `READ_CRC_HI`. The
premise is R34's range; nothing else changes. -/
def Obligations.PayloadByteIsStoredAtOffset : Prop :=
  ∀ (s : State) (d : Byte), 2 ≤ s.cfg.n → s.offset.toNat < 254 →
    ∃ t : State, exec (.asmPayload d) s = .next t ∧
      t = { s with
        buf := t.buf, crcAcc := crcByte s.crcAcc d, crcOut := some (crcByte s.crcAcc d)
        offset := s.offset + 1#8, ended := false
        astate := if s.offset + 1#8 = s.length then .readCrcHi else s.astate } ∧
      bufRead t s.offset.toNat = d ∧
      ∀ a, a ≠ s.offset.toNat → bufRead t a = bufRead s a

/-- R127, R42 (conflict C9: totality wins): with `offset` 254 or 255, which no run reaches (R34), `ASM_PAYLOAD` completes
all the same. Those addresses do not exist (R41), so no byte of the buffer changes (the model's reading, log 14); every
other effect of R115 happens, `offset` going up modulo 256. -/
def Obligations.PayloadOutsideTheBufferStoresNothing : Prop :=
  ∀ (s : State) (d : Byte), 2 ≤ s.cfg.n → 254 ≤ s.offset.toNat →
    exec (.asmPayload d) s =
      .next { s with
        crcAcc := crcByte s.crcAcc d, crcOut := some (crcByte s.crcAcc d)
        offset := s.offset + 1#8, ended := false
        astate := if s.offset + 1#8 = s.length then .readCrcHi else s.astate }

/-- R116: `ASM_CRC_HI` completes, holds the byte as the high half (the low half `0x00` is decision D12), and moves on; the
accumulator is not updated. -/
def Obligations.CrcHighByteIsHeld : Prop :=
  ∀ (s : State) (d : Byte), 2 ≤ s.cfg.n →
    exec (.asmCrcHi d) s = .next { s with rxCrc := d ++ 0x00#8, astate := .readCrcLo, ended := false }

/-- R117: `ASM_CRC_LO` completes the received checksum, complements it and compares all 16 bits with the accumulator.
Equal: `PACKET(length, buf[0 .. length − 1])`, whatever `VERBOSE` is. Unequal: `ChecksumMismatch`. Both end the session
and leave `astate` and `crc_acc`. A byte of the payload that nothing wrote is the free value (log 5), as is the one past the
buffer that a length of 255 asks for, which no run has in this state (R33 (a)): that such a `PACKET` is emitted all the same
is the model's choice (log 14). -/
def Obligations.ChecksumIsComplementedAndCompared : Prop :=
  ∀ (s : State) (d : Byte), 2 ≤ s.cfg.n →
    let rx : Word := 0xFFFF#16 - (s.rxCrc.extractLsb' 8 8 ++ d)
    (rx = s.crcAcc →
      exec (.asmCrcLo d) s =
        .next { s with
          rxCrc := rx, ended := true, endCode := .accepted
          events := s.events ++ [.packet s.length ((List.range s.length.toNat).map (bufRead s))] }) ∧
    (rx ≠ s.crcAcc →
      exec (.asmCrcLo d) s =
        .next { s with
          rxCrc := rx, ended := true, endCode := .rejectedCrc
          events := s.events ++ if s.cfg.verbose then [.crcMismatch rx s.crcAcc] else [] })

/-- R105 with R114 to R117: a field's eight bits, most significant first, received by a `SYNCED` framer at a byte
boundary, complete and are that field's byte: the assembler's whole reaction happens, the session ends where that
reaction ended it (R106), and nothing else happens. That a wire pattern is its bits received is log 12. -/
def Obligations.WireFieldsAreDeliveredWhole : Prop :=
  ∀ (s : State) (d : Byte), 2 ≤ s.cfg.n → s.fstate = .synced → s.bitCnt = 8#4 →
    let got := { beginStep s with byteAcc := d }
    (s.astate = .awaitLength → d ≠ 0xFF#8 →
      ∃ t, exec (.asmLength d) got = .next t ∧ exec (.wireLen d) s = .next t) ∧
    (s.astate = .awaitLength → d = 0xFF#8 →
      ∃ t, exec (.asmLength d) got = .next t ∧ exec .wireLenOversize s = .next { t with fstate := .searching }) ∧
    (s.astate = .readPayload →
      ∃ t, exec (.asmPayload d) got = .next t ∧ exec (.wirePayloadByte d) s = .next t) ∧
    (s.astate = .readCrcHi →
      ∃ t, exec (.asmCrcHi d) got = .next t ∧ exec (.wireCrcHi d) s = .next t) ∧
    (s.astate = .readCrcLo →
      ∃ t, exec (.asmCrcLo d) got = .next t ∧ exec (.wireCrcLo d) s = .next { t with fstate := .searching })

/-- R126 and the source's round trip (95_test_vectors.md S3): after a sync acquisition, the frame of ANY payload of at
most 254 bytes, with the checksum of R63, completes, and its last byte emits exactly that payload as one `PACKET`,
whatever seed, `VERBOSE` and earlier buffer contents. -/
def Obligations.FrameRoundTrip : Prop :=
  ∀ (s : State) (payload : List Byte), 2 ≤ s.cfg.n → SessionStart s → payload.length ≤ 254 →
    let len := BitVec.ofNat 8 payload.length
    let c := 0xFFFF#16 - crcSeq s.cfg.crcSeed (len :: payload)
    ∃ t, execAll (frameInstrs len payload (c.extractLsb' 8 8) (c.extractLsb' 0 8)) s = .next t ∧
      t.events = [.packet len payload] ∧ t.endCode = .accepted ∧ t.fstate = .searching

/-- R126: a frame valid but for exactly one changed payload byte is rejected: no `PACKET`, and with `VERBOSE` a
`CRC_MISMATCH` with two different values. -/
def Obligations.OneWrongPayloadByteIsRejected : Prop :=
  ∀ (s : State) (front back : List Byte) (d e : Byte), 2 ≤ s.cfg.n → SessionStart s →
    (front ++ d :: back).length ≤ 254 → d ≠ e →
    let len := BitVec.ofNat 8 (front ++ d :: back).length
    let c := 0xFFFF#16 - crcSeq s.cfg.crcSeed (len :: (front ++ e :: back))
    ∃ t received computed,
      execAll (frameInstrs len (front ++ d :: back) (c.extractLsb' 8 8) (c.extractLsb' 0 8)) s = .next t ∧
      t.endCode = .rejectedCrc ∧ t.fstate = .searching ∧ received ≠ computed ∧
      t.events = if s.cfg.verbose then [.crcMismatch received computed] else []

/-! ### Outputs -/

/-- R149: a step emits at most one event. -/
def Obligations.AtMostOneEventPerStep : Prop :=
  ∀ (i : Instr) (s t : State), isStepKind i = true → exec i s = .next t → t.events.length ≤ 1

/-- R150 with R106: in a sample step a session ends (the framer leaves `SYNCED`) exactly when an `end_code` is reported;
then the bit counter is 8, and the dispatch word was the length byte's or the checksum low byte's. -/
def Obligations.SessionEndsExactlyWithAnEndCode : Prop :=
  ∀ (s t : State) (v : Word), exec (.sample v) s = .next t →
    (s.fstate = .synced ∧ t.fstate = .searching ↔ t.endCode ≠ .none) ∧
    (t.endCode ≠ .none →
      t.bitCnt = 8#4 ∧
      (dispatchWord false true s = 0b0111100#7 ∧ t.endCode = .rejectedOversize ∨
       dispatchWord false true s = 0b0111111#7 ∧ (t.endCode = .accepted ∨ t.endCode = .rejectedCrc)))

/-- R33 (b): the accumulator is never reseeded in mid-packet. In a session a sample step changes it only when a length or
payload byte is delivered, and then by that byte. -/
def Obligations.CrcIsNeverReseededMidPacket : Prop :=
  ∀ (s t : State) (v : Word), s.fstate = .synced → exec (.sample v) s = .next t →
    (dispatchWord false true s = 0b0111100#7 ∨ dispatchWord false true s = 0b0111101#7 →
      t.crcAcc = crcByte s.crcAcc t.byteAcc) ∧
    (dispatchWord false true s ≠ 0b0111100#7 → dispatchWord false true s ≠ 0b0111101#7 → t.crcAcc = s.crcAcc)

/-- R147: `VERBOSE` gates the four diagnostic events and nothing else. For every instruction, and every step, the machine
with `VERBOSE = 0` does exactly what it does otherwise, less every event but `PACKET`. -/
def Obligations.VerboseGatesDiagnosticsOnly : Prop :=
  (∀ (i : Instr) (s : State), exec i (silenced s) = mapNext silenced (exec i s)) ∧
  ∀ s : State, step (silenced s) = mapNext silenced (step s)

/-- R146: the ports say which event left the block, with its arguments, and `end_code` its code; R31: the level `synced` and
the slicer's tap; R43: the read port shows the buffer at addresses 0 to 253 and `0x00` at 254 and 255 (decision D17). R146
and R31 give `pkt_len` no value without a `PACKET`, `diag_a` none without a diagnostic (a `PACKET` is none), `bit_out` none
without a bit: the zeros stated for them are the model's choice (log 25). -/
def Obligations.PortsShowEventAndBuffer : Prop :=
  (∀ (s : State) (len : Byte) (payload : List Byte), s.events = [.packet len payload] →
    pktValid s = true ∧ pktLen s = len ∧ diagValid s = false ∧ diagCode s = 0#3 ∧ diagA s = 0#16 ∧ diagB s = 0#16) ∧
  (∀ (s : State) (v : Word), s.events = [.sync v] →
    pktValid s = false ∧ pktLen s = 0#8 ∧ diagValid s = true ∧ diagCode s = 1#3 ∧ diagA s = v ∧ diagB s = 0#16) ∧
  (∀ (s : State) (len : Byte), s.events = [.length len] →
    pktValid s = false ∧ pktLen s = 0#8 ∧ diagValid s = true ∧ diagCode s = 2#3 ∧
      diagA s = len.zeroExtend 16 ∧ diagB s = 0#16) ∧
  (∀ (s : State) (len : Byte), s.events = [.oversize len] →
    pktValid s = false ∧ pktLen s = 0#8 ∧ diagValid s = true ∧ diagCode s = 3#3 ∧
      diagA s = len.zeroExtend 16 ∧ diagB s = 0#16) ∧
  (∀ (s : State) (received computed : Word), s.events = [.crcMismatch received computed] →
    pktValid s = false ∧ pktLen s = 0#8 ∧ diagValid s = true ∧ diagCode s = 4#3 ∧
      diagA s = received ∧ diagB s = computed) ∧
  (∀ s : State, s.events = [] →
    pktValid s = false ∧ pktLen s = 0#8 ∧ diagValid s = false ∧ diagCode s = 0#3 ∧ diagA s = 0#16 ∧ diagB s = 0#16) ∧
  (∀ s : State,
    EndCode.code s.endCode =
      match s.endCode with
      | .none => 0#2
      | .accepted => 1#2
      | .rejectedOversize => 2#2
      | .rejectedCrc => 3#2) ∧
  (∀ s : State, synced s = true ↔ s.fstate = .synced) ∧
  (∀ (s : State) (b : Bit), s.bitTap = some b → bitValid s = true ∧ bitOut s = b) ∧
  (∀ s : State, s.bitTap = none → bitValid s = false ∧ bitOut s = 0#1) ∧
  (∀ (s : State) (a : Byte), a.toNat ≤ 253 → pktRdData s a = bufRead s a.toNat) ∧
  ∀ (s : State) (a : Byte), a = 254#8 ∨ a = 255#8 → pktRdData s a = 0x00#8

/-! ### Frames -/

/-- R38, R42: the operations that store nothing leave every byte of the payload buffer. -/
def Obligations.OnlyPayloadOperationsStore : Prop :=
  ∀ (i : Instr) (s t : State), exec i s = .next t →
    (match i with
     | .asmPayload _ | .byteShift _ | .sample _ | .byteIn _ | .wireSyncWord | .wireSyncWordInv | .wireLen _
     | .wireLenOversize | .wirePayloadByte _ | .wireCrcHi _ | .wireCrcLo _ | .wireSample _ => False
     | .reset | .idle | .thrUpdate _ | .decimate | .slice _ | .syncShift _ | .sessionInit | .asmLength _
     | .asmCrcHi _ | .asmCrcLo _ | .crcUpdate _ _ | .sessionEnd => True) →
    ∀ a, bufRead t a = bufRead s a

/-- R38, R42: what a sample step stores, and what it leaves. It stores at `offset`, and only when its dispatch word is
`0111101`; the front end, the inputs and the configuration are not its business. Off a boundary every register of the
framer and of the assembler stays. -/
def Obligations.SampleFrame : Prop :=
  ∀ (s t : State) (v : Word), exec (.sample v) s = .next t →
    (t.cfg = s.cfg ∧ t.loByte = s.loByte ∧ t.haveLo = s.haveLo ∧ t.inputs = s.inputs) ∧
    (dispatchWord false true s = 0b0111101#7 → ∀ a, a ≠ s.offset.toNat → bufRead t a = bufRead s a) ∧
    (dispatchWord false true s ≠ 0b0111101#7 → (∀ a, bufRead t a = bufRead s a) ∧
      (t.fstate = s.fstate → t.offset = s.offset)) ∧
    (s.fstate = .searching → t.byteAcc = s.byteAcc ∧ t.length = s.length) ∧
    (s.decCnt ≠ 1 → t.fstate = s.fstate ∧ t.byteAcc = s.byteAcc ∧ t.bitCnt = s.bitCnt ∧ t.astate = s.astate ∧
      t.length = s.length ∧ t.offset = s.offset ∧ t.crcAcc = s.crcAcc ∧ t.rxCrc = s.rxCrc ∧ t.syncReg = s.syncReg ∧
      t.buf = s.buf)

/-- R38: the framer's and the assembler's operations leave the slicer, the front end, the configuration and the inputs;
`BYTE_SHIFT` leaves `sync_reg`, and stores at `offset` only, on the eighth bit in `READ_PAYLOAD`. -/
def Obligations.FramerOperationsFrame : Prop :=
  ∀ (i : Instr) (s t : State), exec i s = .next t →
    (match i with
     | .syncShift _ | .sessionInit | .byteShift _ | .sessionEnd | .asmLength _ | .asmPayload _ | .asmCrcHi _
     | .asmCrcLo _ | .crcUpdate _ _ => True
     | .reset | .idle | .sample _ | .byteIn _ | .thrUpdate _ | .decimate | .slice _ | .wireSyncWord
     | .wireSyncWordInv | .wireLen _ | .wireLenOversize | .wirePayloadByte _ | .wireCrcHi _ | .wireCrcLo _
     | .wireSample _ => False) →
    (t.cfg = s.cfg ∧ t.loByte = s.loByte ∧ t.haveLo = s.haveLo ∧ t.inputs = s.inputs ∧
      t.threshold = s.threshold ∧ t.decCnt = s.decCnt ∧ t.bitTap = s.bitTap ∧ t.boundary = s.boundary) ∧
    ∀ b, i = .byteShift b →
      t.syncReg = s.syncReg ∧
      (s.bitCnt = 1#4 ∧ s.astate = .readPayload → ∀ a, a ≠ s.offset.toNat → bufRead t a = bufRead s a) ∧
      (¬ (s.bitCnt = 1#4 ∧ s.astate = .readPayload) → ∀ a, bufRead t a = bufRead s a)

/-- R42, R61: a wire pattern of the bit stream leaves the slicer, the front end, the configuration and the inputs; one of
8 bits stores at `offset` at most, one of 16 bits at `offset` and at the next value of `offset` (8 bits, modulo 256: it wraps
only where no run gets, log 14) at most. -/
def Obligations.WirePatternsFrame : Prop :=
  ∀ (i : Instr) (s t : State), isWirePattern i = true → (∀ v, i ≠ .wireSample v) → exec i s = .next t →
    (t.cfg = s.cfg ∧ t.loByte = s.loByte ∧ t.haveLo = s.haveLo ∧ t.inputs = s.inputs ∧
      t.threshold = s.threshold ∧ t.decCnt = s.decCnt) ∧
    (∀ a, a ≠ s.offset.toNat → a ≠ (s.offset + 1#8).toNat → bufRead t a = bufRead s a) ∧
    (i ≠ .wireSyncWord → i ≠ .wireSyncWordInv → ∀ a, a ≠ s.offset.toNat → bufRead t a = bufRead s a)

/-! ### Invariants and runs -/

/-- R34, R37: the reset state of every configuration with `N ≥ 2` meets the invariant, and the machine's own does. -/
def Obligations.ResetMeetsTheInvariant : Prop :=
  (∀ c : Config, 2 ≤ c.n → BlockInvariant (State.resetWith c)) ∧ BlockInvariant State.reset

/-- R33 (a), R34, R120, R124: every step keeps the invariant: the ranges of the counters, `offset` and `length`, the
session clauses, the accumulator's coverage of the bytes stored so far, and the buffer's canonical form. -/
def Obligations.StepKeepsTheInvariant : Prop :=
  ∀ s t : State, BlockInvariant s → step s = .next t → BlockInvariant t

/-- R127, R156, R157 (conflict C9): the step is total. In EVERY state with `N ≥ 2`, reachable or not, on any input
whatever, the step completes, and so does every instruction on all operands. -/
def Obligations.NoStepStops : Prop :=
  (∀ s : State, 2 ≤ s.cfg.n → ∃ t, step s = .next t) ∧
  ∀ (i : Instr) (s : State), 2 ≤ s.cfg.n → ∃ t, exec i s = .next t

/-- R67, R127: in every state that meets the invariant every operation a step can be, and every wire pattern, completes,
and keeps the invariant. -/
def Obligations.StepKindsAndWirePatternsComplete : Prop :=
  ∀ (i : Instr) (s : State), isStepKind i = true ∨ isWirePattern i = true → BlockInvariant s →
    ∃ t, exec i s = .next t ∧ BlockInvariant t

/-- R40: every instruction keeps the buffer in its canonical form. -/
def Obligations.BufferStaysCanonical : Prop :=
  ∀ (i : Instr) (s t : State), Memory.wf s.buf = true → exec i s = .next t → Memory.wf t.buf = true

/-- R110, R138: no input wedges the decoder. From every state that meets the invariant, within any 2056 bits the framer is
`SEARCHING` at some point. -/
def Obligations.SearchingWithin2056Bits : Prop :=
  ∀ (s : State) (bs : List Bit), BlockInvariant s → bs.length = 2056 →
    ∃ k, k ≤ 2056 ∧ (receiveBits (bs.take k) s).fstate = .searching

/-- R74 with R95 and R93: `N` samples of one level, from the counter's reload, deliver exactly their bit to the framer in
the last of those steps, and no event before it. -/
def Obligations.BitStimulusDeliversItsBit : Prop :=
  ∀ (s : State) (a : Nat) (b : Bit) (rest : List Input), 2 ≤ s.cfg.n → s.decCnt = s.cfg.n →
    1 ≤ a → a ≤ 32767 → -(a : Int) ≤ s.threshold.toInt → s.threshold.toInt ≤ (a : Int) - 1 →
    s.inputs = bitStimulus s.cfg.n a b ++ rest →
    ∃ th : Word, (-(a : Int) ≤ th.toInt ∧ th.toInt ≤ (a : Int) - 1) ∧
      let t := receiveBit b { beginStep s with threshold := th, boundary := true, bitTap := some b, inputs := rest }
      runEvents s.cfg.n s = some (t, t.events)

/-- The source's round trip through the full pipeline (95_test_vectors.md S3, S7; R74, R95, R126, R138). From ANY state
that meets the invariant, is searching with no early match ahead and stands at a bit boundary, the samples of `packet P`
run to the end and the run's events are exactly `SYNC`, `LENGTH` and one `PACKET` with the payload `P` (the `PACKET` alone
with `VERBOSE = 0`). -/
def Obligations.PacketStimulusEmitsItsPayload : Prop :=
  ∀ (s : State) (a : Nat) (payload : List Byte), BlockInvariant s → s.fstate = .searching → s.decCnt = s.cfg.n →
    NoEarlyMatch s.syncReg 0x2DAA#16 →
    1 ≤ a → a ≤ 32767 → -(a : Int) ≤ s.threshold.toInt → s.threshold.toInt ≤ (a : Int) - 1 →
    payload.length ≤ 254 →
    s.inputs = packetStimulus s.cfg.n a s.cfg.crcSeed payload →
    ∃ t, runEvents s.inputs.length s =
        some (t,
          if s.cfg.verbose then
            [.sync 0x2DAA#16, .length (BitVec.ofNat 8 payload.length), .packet (BitVec.ofNat 8 payload.length) payload]
          else [.packet (BitVec.ofNat 8 payload.length) payload]) ∧
      t.fstate = .searching ∧ t.syncReg = 0x2DAA#16
end

