-- ==== Sys2Proof/Laws/Bits.lean ====
section
/-! SUPPORT. Bits, bytes and words: halves go together, and eight or sixteen shifts replace a register. -/

namespace Sys2Proof.Machine

/-- A bit is 0 or 1. -/
theorem bit_cases (b : Bit) : b = 0#1 ∨ b = 1#1 := by
  revert b; decide

/-- A word is its high byte and its low byte (R58, R64). -/
@[simp] theorem halves_append (w : Word) : w.extractLsb' 8 8 ++ w.extractLsb' 0 8 = w := by
  ext i hi
  simp only [BitVec.getElem_append, BitVec.getElem_extractLsb']
  split
  · simp [BitVec.getElem_eq_testBit_toNat, BitVec.getLsbD]
  · rename_i h; have : 8 + (i - 8) = i := by omega
    simp [this, BitVec.getElem_eq_testBit_toNat, BitVec.getLsbD]

/-- The complement is an involution (R63, R121). -/
theorem complementChecksum_involutive (w : Word) : complementChecksum (complementChecksum w) = w := by
  simp only [complementChecksum]; bv_omega

/-- The bits of a byte, most significant first (R47). -/
theorem msbFirst_byte (d : Byte) :
    msbFirst d =
      [d.extractLsb' 7 1, d.extractLsb' 6 1, d.extractLsb' 5 1, d.extractLsb' 4 1, d.extractLsb' 3 1,
        d.extractLsb' 2 1, d.extractLsb' 1 1, d.extractLsb' 0 1] := rfl

/-- The newest bit is in bit 0 (R64 (b)). -/
theorem shiftIntoByte_getLsbD_zero (acc : Byte) (b : Bit) :
    (shiftIntoByte acc b).getLsbD 0 = b.getLsbD 0 := by
  rw [shiftIntoByte]
  exact (BitVec.getLsbD_append (x := BitVec.extractLsb' 0 7 acc) (y := b)).trans (by simp)

/-- The older bits move up by one; bit 7 falls out (R64 (b)). -/
theorem shiftIntoByte_getLsbD_succ (acc : Byte) (b : Bit) (i : Nat) :
    (shiftIntoByte acc b).getLsbD (i + 1) = (decide (i < 7) && acc.getLsbD i) := by
  rw [shiftIntoByte]
  exact (BitVec.getLsbD_append (x := BitVec.extractLsb' 0 7 acc) (y := b)).trans
    (by simp [BitVec.getLsbD_extractLsb'])

/-- The newest bit is in bit 0 (R64 (c)). -/
theorem shiftIntoSync_getLsbD_zero (reg : Word) (b : Bit) :
    (shiftIntoSync reg b).getLsbD 0 = b.getLsbD 0 := by
  rw [shiftIntoSync]
  exact (BitVec.getLsbD_append (x := BitVec.extractLsb' 0 15 reg) (y := b)).trans (by simp)

/-- The older bits move up by one; bit 15 falls out (R64 (c)). -/
theorem shiftIntoSync_getLsbD_succ (reg : Word) (b : Bit) (i : Nat) :
    (shiftIntoSync reg b).getLsbD (i + 1) = (decide (i < 15) && reg.getLsbD i) := by
  rw [shiftIntoSync]
  exact (BitVec.getLsbD_append (x := BitVec.extractLsb' 0 15 reg) (y := b)).trans
    (by simp [BitVec.getLsbD_extractLsb'])

/-- Shifting doubles the register and adds the bit, modulo 2^16. -/
theorem shiftIntoSync_toNat (reg : Word) (b : Bit) :
    (shiftIntoSync reg b).toNat = (2 * reg.toNat + b.toNat) % 65536 := by
  have hb : b.toNat < 2 := b.isLt
  have hr : reg.toNat < 65536 := reg.isLt
  simp only [shiftIntoSync, BitVec.toNat_append, BitVec.extractLsb'_toNat, Nat.shiftRight_zero, Nat.shiftLeft_eq]
  rw [← Nat.shiftLeft_eq, ← Nat.shiftLeft_add_eq_or_of_lt (by simpa using hb)]
  simp only [Nat.shiftLeft_eq]
  omega

/-- Eight shifts, first bit first, replace every bit of the accumulator (R23, R105). -/
theorem shift_byte (acc d : Byte) : (msbFirst d).foldl shiftIntoByte acc = d := by
  rw [msbFirst_byte]
  simp only [List.foldl_cons, List.foldl_nil]
  refine BitVec.eq_of_getLsbD_eq fun i hi => ?_
  interval_cases i <;>
    simp only [shiftIntoByte_getLsbD_zero, shiftIntoByte_getLsbD_succ, BitVec.getLsbD_extractLsb'] <;> simp

/-- The bits of a 16-bit pattern, most significant first (R48). -/
theorem msbFirst_word (w : Word) :
    msbFirst w =
      [w.extractLsb' 15 1, w.extractLsb' 14 1, w.extractLsb' 13 1, w.extractLsb' 12 1, w.extractLsb' 11 1,
        w.extractLsb' 10 1, w.extractLsb' 9 1, w.extractLsb' 8 1, w.extractLsb' 7 1, w.extractLsb' 6 1,
        w.extractLsb' 5 1, w.extractLsb' 4 1, w.extractLsb' 3 1, w.extractLsb' 2 1, w.extractLsb' 1 1,
        w.extractLsb' 0 1] := rfl

/-- Sixteen shifts, first bit first, replace the whole sync register (R60). -/
theorem shift_word (reg w : Word) : (msbFirst w).foldl shiftIntoSync reg = w := by
  rw [msbFirst_word]
  simp only [List.foldl_cons, List.foldl_nil]
  refine BitVec.eq_of_getLsbD_eq fun i hi => ?_
  interval_cases i <;>
    simp only [shiftIntoSync_getLsbD_zero, shiftIntoSync_getLsbD_succ, BitVec.getLsbD_extractLsb'] <;> simp

end Sys2Proof.Machine
end

