-- ==== Sys2Proof/Laws/Crc.lean ====
section
/-! SUPPORT. The CRC step is injective in the register and in the byte (40_crc_engine.md R83), and `crc_seq` extends on the
right (R82). -/

namespace Sys2Proof.Machine

theorem word_xor_right_cancel (a b c : Word) (h : a ^^^ c = b ^^^ c) : a = b := by
  have := congrArg (· ^^^ c) h; simpa [BitVec.xor_assoc] using this

/-- One iteration loses nothing: bit 0 of the result is the bit shifted out. -/
theorem crcIteration_injective (a b : Word) (h : crcIteration a = crcIteration b) : a = b := by
  have h0 : ∀ c : Word, (crcIteration c).getLsbD 0 = c.getLsbD 15 := by
    intro c; unfold crcIteration; split <;> rename_i h <;> simp at h <;> simp [h, crcPoly]
  have h15 : a.getLsbD 15 = b.getLsbD 15 := by rw [← h0, ← h0, h]
  have hs : a <<< 1 = b <<< 1 := by
    unfold crcIteration at h
    rw [h15] at h
    split at h
    · exact word_xor_right_cancel _ _ _ h
    · exact h
  refine BitVec.eq_of_getLsbD_eq fun i hi => ?_
  by_cases hi15 : i = 15
  · subst hi15; exact h15
  · have := congrArg (fun x : Word => x.getLsbD (i+1)) hs
    simp only [BitVec.getLsbD_shiftLeft] at this
    simpa only [show i + 1 < 16 by omega, decide_true, Bool.true_and, show ¬ i + 1 < 1 by omega, decide_false, Bool.not_false, Nat.add_sub_cancel] using this

theorem crcIterations_injective (k : Nat) (a b : Word) (h : crcIterations k a = crcIterations k b) : a = b := by
  induction k generalizing a b with
  | zero => exact h
  | succ k ih => exact crcIteration_injective _ _ (ih _ _ h)

/-- `CRC_UPDATE` is injective in the register. -/
theorem crcByte_register_injective (a b : Word) (d : Byte) (h : crcByte a d = crcByte b d) : a = b := word_xor_right_cancel _ _ _ (crcIterations_injective _ _ _ h)

/-- `CRC_UPDATE` is injective in the byte. -/
theorem crcByte_byte_injective (a : Word) (d e : Byte) (h : crcByte a d = crcByte a e) : d = e := by
  have h1 := crcIterations_injective _ _ _ h
  rw [BitVec.xor_comm a, BitVec.xor_comm a] at h1
  have h2 := word_xor_right_cancel _ _ _ h1
  have := congrArg (fun x => x.extractLsb' 8 8) h2
  have f : ∀ d : Byte, (d ++ 0x00#8 : Word).extractLsb' 8 8 = d := by decide +kernel
  simpa [f] using this

/-- The last byte is taken last (R82). -/
theorem crcSeq_snoc (seed : Word) (ds : List Byte) (d : Byte) : crcSeq seed (ds ++ [d]) = crcByte (crcSeq seed ds) d := by
  simp [crcSeq]

end Sys2Proof.Machine
end

