-- ==== Sys2Proof/Laws/Memory.lean ====
section
/-! SUPPORT. The laws of the payload buffer: read after write, and that writing keeps the canonical form. -/

namespace Sys2Proof.Machine

/-- Reading the address just written gives the byte written. -/
@[simp] theorem Memory.read_write_same (m : Memory) (a : Nat) (v : Byte) :
    Memory.read? (Memory.write m a v) a = some v := by
  induction m with
  | nil => simp [Memory.write, Memory.read?]
  | cons c rest ih =>
    obtain ⟨b, w⟩ := c
    simp only [Memory.write]
    split
    · simp [Memory.read?]
    · split
      · simp [Memory.read?]
      · have h : b ≠ a := fun h => by omega
        simp [Memory.read?, h, ih]

/-- Reading another address gives what it gave before. -/
@[simp] theorem Memory.read_write_other (m : Memory) {a b : Nat} (v : Byte) (h : b ≠ a) :
    Memory.read? (Memory.write m a v) b = Memory.read? m b := by
  induction m with
  | nil => simp [Memory.write, Memory.read?, h.symm]
  | cons c rest ih =>
    obtain ⟨x, w⟩ := c
    simp only [Memory.write]
    split
    · simp [Memory.read?, h.symm]
    · split
      · subst_vars; simp [Memory.read?, h.symm]
      · simp [Memory.read?, ih]

/-- An entry written above a bound keeps the list above it and rising. -/
theorem Memory.write_risesAbove {m : Memory} {low a : Nat} (v : Byte) (hlow : low < a)
    (hm : Memory.risesAbove low m = true) : Memory.risesAbove low (Memory.write m a v) = true := by
  induction m generalizing low with
  | nil => simp [Memory.write, Memory.risesAbove, hlow]
  | cons c rest ih =>
    obtain ⟨b, w⟩ := c
    simp only [Memory.risesAbove, Bool.and_eq_true, decide_eq_true_eq] at hm
    simp only [Memory.write]
    split
    · simp [Memory.risesAbove, *]
    · split
      · subst_vars; simp [Memory.risesAbove, *]
      · simp only [Memory.risesAbove, Bool.and_eq_true, decide_eq_true_eq]
        exact ⟨hm.1, ih (by omega) hm.2⟩

/-- Every address of the list after a write is the one written or was there before. -/
theorem Memory.all_write {m : Memory} {a : Nat} (v : Byte) {p : Nat → Bool} (ha : p a = true)
    (hm : m.all (fun c => p c.1) = true) : (Memory.write m a v).all (fun c => p c.1) = true := by
  induction m with
  | nil => simp [Memory.write, ha]
  | cons c rest ih =>
    obtain ⟨b, w⟩ := c
    simp only [List.all_cons, Bool.and_eq_true] at hm
    simp only [Memory.write]
    split
    · simp [ha, hm.1, hm.2]
    · split
      · simp [ha, hm.2]
      · simp [hm.1, ih hm.2]

/-- Writing inside the buffer keeps the canonical form. -/
theorem Memory.wf_write {m : Memory} {a : Nat} (v : Byte) (ha : a < bufCap) (hm : Memory.wf m = true) :
    Memory.wf (Memory.write m a v) = true := by
  simp only [Memory.wf, Bool.and_eq_true] at hm ⊢
  refine ⟨?_, Memory.all_write (p := fun x => decide (x < bufCap)) v (by simp [ha]) hm.2⟩
  cases m with
  | nil => simp [Memory.write, Memory.risesAbove]
  | cons c rest =>
    obtain ⟨b, w⟩ := c
    by_cases hlt : a < b
    · simpa [Memory.write, hlt, Memory.risesAbove] using hm.1
    · by_cases heq : a = b
      · subst heq; simpa [Memory.write] using hm.1
      · simpa [Memory.write, hlt, heq] using Memory.write_risesAbove v (by omega) hm.1

/-- The buffer after reset is canonical. -/
theorem Memory.wf_reset : Memory.wf State.reset.buf = true := rfl

/-- What a buffer write can do: store inside the buffer, or nothing (R41, R42). -/
theorem bufWrite_cases (a : Nat) (d : Byte) (s : State) :
    (a < bufCap ∧ bufWrite a d s = { s with buf := Memory.write s.buf a d }) ∨ (bufCap ≤ a ∧ bufWrite a d s = s) := by
  unfold bufWrite
  split
  · exact .inl ⟨‹_›, rfl⟩
  · exact .inr ⟨by omega, rfl⟩

/-- A buffer write keeps the canonical form. -/
theorem bufWrite_wf (a : Nat) (d : Byte) {s : State} (h : Memory.wf s.buf = true) :
    Memory.wf (bufWrite a d s).buf = true := by
  rcases bufWrite_cases a d s with ⟨ha, e⟩ | ⟨_, e⟩ <;> rw [e]
  · exact Memory.wf_write d ha h
  · exact h

/-- A buffer write changes its own address at most. -/
theorem bufRead_bufWrite_other {a b : Nat} (d : Byte) (s : State) (h : b ≠ a) :
    bufRead (bufWrite a d s) b = bufRead s b := by
  rcases bufWrite_cases a d s with ⟨_, e⟩ | ⟨_, e⟩ <;> rw [e]
  simp [bufRead, h]

/-- Reads depend on the buffer alone. -/
theorem bufRead_congr {s t : State} (h : t.buf = s.buf) (a : Nat) : bufRead t a = bufRead s a := by
  simp [bufRead, h]

end Sys2Proof.Machine
end

