-- ==== Sys2Proof/Laws/State.lean ====
section
/-! SUPPORT. One lemma per field per update of the state, each true by unfolding, so that no later proof unfolds a record
update. -/

namespace Sys2Proof.Machine

@[simp] theorem beginStep_cfg (s : State) : (beginStep s).cfg = s.cfg := rfl
@[simp] theorem beginStep_loByte (s : State) : (beginStep s).loByte = s.loByte := rfl
@[simp] theorem beginStep_haveLo (s : State) : (beginStep s).haveLo = s.haveLo := rfl
@[simp] theorem beginStep_threshold (s : State) : (beginStep s).threshold = s.threshold := rfl
@[simp] theorem beginStep_decCnt (s : State) : (beginStep s).decCnt = s.decCnt := rfl
@[simp] theorem beginStep_fstate (s : State) : (beginStep s).fstate = s.fstate := rfl
@[simp] theorem beginStep_syncReg (s : State) : (beginStep s).syncReg = s.syncReg := rfl
@[simp] theorem beginStep_byteAcc (s : State) : (beginStep s).byteAcc = s.byteAcc := rfl
@[simp] theorem beginStep_bitCnt (s : State) : (beginStep s).bitCnt = s.bitCnt := rfl
@[simp] theorem beginStep_astate (s : State) : (beginStep s).astate = s.astate := rfl
@[simp] theorem beginStep_length (s : State) : (beginStep s).length = s.length := rfl
@[simp] theorem beginStep_offset (s : State) : (beginStep s).offset = s.offset := rfl
@[simp] theorem beginStep_crcAcc (s : State) : (beginStep s).crcAcc = s.crcAcc := rfl
@[simp] theorem beginStep_rxCrc (s : State) : (beginStep s).rxCrc = s.rxCrc := rfl
@[simp] theorem beginStep_buf (s : State) : (beginStep s).buf = s.buf := rfl
@[simp] theorem beginStep_events (s : State) : (beginStep s).events = [] := rfl
@[simp] theorem beginStep_endCode (s : State) : (beginStep s).endCode = .none := rfl
@[simp] theorem beginStep_bitTap (s : State) : (beginStep s).bitTap = none := rfl
@[simp] theorem beginStep_boundary (s : State) : (beginStep s).boundary = false := rfl
@[simp] theorem beginStep_ended (s : State) : (beginStep s).ended = false := rfl
@[simp] theorem beginStep_crcOut (s : State) : (beginStep s).crcOut = none := rfl
@[simp] theorem beginStep_inputs (s : State) : (beginStep s).inputs = s.inputs := rfl

@[simp] theorem consumeInput_cfg (s : State) : (consumeInput s).cfg = s.cfg := rfl
@[simp] theorem consumeInput_loByte (s : State) : (consumeInput s).loByte = s.loByte := rfl
@[simp] theorem consumeInput_haveLo (s : State) : (consumeInput s).haveLo = s.haveLo := rfl
@[simp] theorem consumeInput_threshold (s : State) : (consumeInput s).threshold = s.threshold := rfl
@[simp] theorem consumeInput_decCnt (s : State) : (consumeInput s).decCnt = s.decCnt := rfl
@[simp] theorem consumeInput_fstate (s : State) : (consumeInput s).fstate = s.fstate := rfl
@[simp] theorem consumeInput_syncReg (s : State) : (consumeInput s).syncReg = s.syncReg := rfl
@[simp] theorem consumeInput_byteAcc (s : State) : (consumeInput s).byteAcc = s.byteAcc := rfl
@[simp] theorem consumeInput_bitCnt (s : State) : (consumeInput s).bitCnt = s.bitCnt := rfl
@[simp] theorem consumeInput_astate (s : State) : (consumeInput s).astate = s.astate := rfl
@[simp] theorem consumeInput_length (s : State) : (consumeInput s).length = s.length := rfl
@[simp] theorem consumeInput_offset (s : State) : (consumeInput s).offset = s.offset := rfl
@[simp] theorem consumeInput_crcAcc (s : State) : (consumeInput s).crcAcc = s.crcAcc := rfl
@[simp] theorem consumeInput_rxCrc (s : State) : (consumeInput s).rxCrc = s.rxCrc := rfl
@[simp] theorem consumeInput_buf (s : State) : (consumeInput s).buf = s.buf := rfl
@[simp] theorem consumeInput_events (s : State) : (consumeInput s).events = s.events := rfl
@[simp] theorem consumeInput_endCode (s : State) : (consumeInput s).endCode = s.endCode := rfl
@[simp] theorem consumeInput_bitTap (s : State) : (consumeInput s).bitTap = s.bitTap := rfl
@[simp] theorem consumeInput_boundary (s : State) : (consumeInput s).boundary = s.boundary := rfl
@[simp] theorem consumeInput_ended (s : State) : (consumeInput s).ended = s.ended := rfl
@[simp] theorem consumeInput_crcOut (s : State) : (consumeInput s).crcOut = s.crcOut := rfl
@[simp] theorem consumeInput_inputs (s : State) : (consumeInput s).inputs = s.inputs.tail := rfl

@[simp] theorem crcUpdate_cfg (crc : Word) (d : Byte) (s : State) : (crcUpdate crc d s).cfg = s.cfg := rfl
@[simp] theorem crcUpdate_loByte (crc : Word) (d : Byte) (s : State) : (crcUpdate crc d s).loByte = s.loByte := rfl
@[simp] theorem crcUpdate_haveLo (crc : Word) (d : Byte) (s : State) : (crcUpdate crc d s).haveLo = s.haveLo := rfl
@[simp] theorem crcUpdate_threshold (crc : Word) (d : Byte) (s : State) : (crcUpdate crc d s).threshold = s.threshold := rfl
@[simp] theorem crcUpdate_decCnt (crc : Word) (d : Byte) (s : State) : (crcUpdate crc d s).decCnt = s.decCnt := rfl
@[simp] theorem crcUpdate_fstate (crc : Word) (d : Byte) (s : State) : (crcUpdate crc d s).fstate = s.fstate := rfl
@[simp] theorem crcUpdate_syncReg (crc : Word) (d : Byte) (s : State) : (crcUpdate crc d s).syncReg = s.syncReg := rfl
@[simp] theorem crcUpdate_byteAcc (crc : Word) (d : Byte) (s : State) : (crcUpdate crc d s).byteAcc = s.byteAcc := rfl
@[simp] theorem crcUpdate_bitCnt (crc : Word) (d : Byte) (s : State) : (crcUpdate crc d s).bitCnt = s.bitCnt := rfl
@[simp] theorem crcUpdate_astate (crc : Word) (d : Byte) (s : State) : (crcUpdate crc d s).astate = s.astate := rfl
@[simp] theorem crcUpdate_length (crc : Word) (d : Byte) (s : State) : (crcUpdate crc d s).length = s.length := rfl
@[simp] theorem crcUpdate_offset (crc : Word) (d : Byte) (s : State) : (crcUpdate crc d s).offset = s.offset := rfl
@[simp] theorem crcUpdate_crcAcc (crc : Word) (d : Byte) (s : State) : (crcUpdate crc d s).crcAcc = s.crcAcc := rfl
@[simp] theorem crcUpdate_rxCrc (crc : Word) (d : Byte) (s : State) : (crcUpdate crc d s).rxCrc = s.rxCrc := rfl
@[simp] theorem crcUpdate_buf (crc : Word) (d : Byte) (s : State) : (crcUpdate crc d s).buf = s.buf := rfl
@[simp] theorem crcUpdate_events (crc : Word) (d : Byte) (s : State) : (crcUpdate crc d s).events = s.events := rfl
@[simp] theorem crcUpdate_endCode (crc : Word) (d : Byte) (s : State) : (crcUpdate crc d s).endCode = s.endCode := rfl
@[simp] theorem crcUpdate_bitTap (crc : Word) (d : Byte) (s : State) : (crcUpdate crc d s).bitTap = s.bitTap := rfl
@[simp] theorem crcUpdate_boundary (crc : Word) (d : Byte) (s : State) : (crcUpdate crc d s).boundary = s.boundary := rfl
@[simp] theorem crcUpdate_ended (crc : Word) (d : Byte) (s : State) : (crcUpdate crc d s).ended = s.ended := rfl
@[simp] theorem crcUpdate_crcOut (crc : Word) (d : Byte) (s : State) : (crcUpdate crc d s).crcOut = some (crcByte crc d) := rfl
@[simp] theorem crcUpdate_inputs (crc : Word) (d : Byte) (s : State) : (crcUpdate crc d s).inputs = s.inputs := rfl

@[simp] theorem crcAccumulate_cfg (d : Byte) (s : State) : (crcAccumulate d s).cfg = s.cfg := rfl
@[simp] theorem crcAccumulate_loByte (d : Byte) (s : State) : (crcAccumulate d s).loByte = s.loByte := rfl
@[simp] theorem crcAccumulate_haveLo (d : Byte) (s : State) : (crcAccumulate d s).haveLo = s.haveLo := rfl
@[simp] theorem crcAccumulate_threshold (d : Byte) (s : State) : (crcAccumulate d s).threshold = s.threshold := rfl
@[simp] theorem crcAccumulate_decCnt (d : Byte) (s : State) : (crcAccumulate d s).decCnt = s.decCnt := rfl
@[simp] theorem crcAccumulate_fstate (d : Byte) (s : State) : (crcAccumulate d s).fstate = s.fstate := rfl
@[simp] theorem crcAccumulate_syncReg (d : Byte) (s : State) : (crcAccumulate d s).syncReg = s.syncReg := rfl
@[simp] theorem crcAccumulate_byteAcc (d : Byte) (s : State) : (crcAccumulate d s).byteAcc = s.byteAcc := rfl
@[simp] theorem crcAccumulate_bitCnt (d : Byte) (s : State) : (crcAccumulate d s).bitCnt = s.bitCnt := rfl
@[simp] theorem crcAccumulate_astate (d : Byte) (s : State) : (crcAccumulate d s).astate = s.astate := rfl
@[simp] theorem crcAccumulate_length (d : Byte) (s : State) : (crcAccumulate d s).length = s.length := rfl
@[simp] theorem crcAccumulate_offset (d : Byte) (s : State) : (crcAccumulate d s).offset = s.offset := rfl
@[simp] theorem crcAccumulate_crcAcc (d : Byte) (s : State) : (crcAccumulate d s).crcAcc = crcByte s.crcAcc d := rfl
@[simp] theorem crcAccumulate_rxCrc (d : Byte) (s : State) : (crcAccumulate d s).rxCrc = s.rxCrc := rfl
@[simp] theorem crcAccumulate_buf (d : Byte) (s : State) : (crcAccumulate d s).buf = s.buf := rfl
@[simp] theorem crcAccumulate_events (d : Byte) (s : State) : (crcAccumulate d s).events = s.events := rfl
@[simp] theorem crcAccumulate_endCode (d : Byte) (s : State) : (crcAccumulate d s).endCode = s.endCode := rfl
@[simp] theorem crcAccumulate_bitTap (d : Byte) (s : State) : (crcAccumulate d s).bitTap = s.bitTap := rfl
@[simp] theorem crcAccumulate_boundary (d : Byte) (s : State) : (crcAccumulate d s).boundary = s.boundary := rfl
@[simp] theorem crcAccumulate_ended (d : Byte) (s : State) : (crcAccumulate d s).ended = s.ended := rfl
@[simp] theorem crcAccumulate_crcOut (d : Byte) (s : State) : (crcAccumulate d s).crcOut = some (crcByte s.crcAcc d) := rfl
@[simp] theorem crcAccumulate_inputs (d : Byte) (s : State) : (crcAccumulate d s).inputs = s.inputs := rfl

@[simp] theorem thrUpdate_cfg (v : Word) (s : State) : (thrUpdate v s).cfg = s.cfg := rfl
@[simp] theorem thrUpdate_loByte (v : Word) (s : State) : (thrUpdate v s).loByte = s.loByte := rfl
@[simp] theorem thrUpdate_haveLo (v : Word) (s : State) : (thrUpdate v s).haveLo = s.haveLo := rfl
@[simp] theorem thrUpdate_threshold (v : Word) (s : State) : (thrUpdate v s).threshold = nextThreshold s.cfg v s.threshold := rfl
@[simp] theorem thrUpdate_decCnt (v : Word) (s : State) : (thrUpdate v s).decCnt = s.decCnt := rfl
@[simp] theorem thrUpdate_fstate (v : Word) (s : State) : (thrUpdate v s).fstate = s.fstate := rfl
@[simp] theorem thrUpdate_syncReg (v : Word) (s : State) : (thrUpdate v s).syncReg = s.syncReg := rfl
@[simp] theorem thrUpdate_byteAcc (v : Word) (s : State) : (thrUpdate v s).byteAcc = s.byteAcc := rfl
@[simp] theorem thrUpdate_bitCnt (v : Word) (s : State) : (thrUpdate v s).bitCnt = s.bitCnt := rfl
@[simp] theorem thrUpdate_astate (v : Word) (s : State) : (thrUpdate v s).astate = s.astate := rfl
@[simp] theorem thrUpdate_length (v : Word) (s : State) : (thrUpdate v s).length = s.length := rfl
@[simp] theorem thrUpdate_offset (v : Word) (s : State) : (thrUpdate v s).offset = s.offset := rfl
@[simp] theorem thrUpdate_crcAcc (v : Word) (s : State) : (thrUpdate v s).crcAcc = s.crcAcc := rfl
@[simp] theorem thrUpdate_rxCrc (v : Word) (s : State) : (thrUpdate v s).rxCrc = s.rxCrc := rfl
@[simp] theorem thrUpdate_buf (v : Word) (s : State) : (thrUpdate v s).buf = s.buf := rfl
@[simp] theorem thrUpdate_events (v : Word) (s : State) : (thrUpdate v s).events = s.events := rfl
@[simp] theorem thrUpdate_endCode (v : Word) (s : State) : (thrUpdate v s).endCode = s.endCode := rfl
@[simp] theorem thrUpdate_bitTap (v : Word) (s : State) : (thrUpdate v s).bitTap = s.bitTap := rfl
@[simp] theorem thrUpdate_boundary (v : Word) (s : State) : (thrUpdate v s).boundary = s.boundary := rfl
@[simp] theorem thrUpdate_ended (v : Word) (s : State) : (thrUpdate v s).ended = s.ended := rfl
@[simp] theorem thrUpdate_crcOut (v : Word) (s : State) : (thrUpdate v s).crcOut = s.crcOut := rfl
@[simp] theorem thrUpdate_inputs (v : Word) (s : State) : (thrUpdate v s).inputs = s.inputs := rfl

@[simp] theorem slice_cfg (v : Word) (s : State) : (slice v s).cfg = s.cfg := rfl
@[simp] theorem slice_loByte (v : Word) (s : State) : (slice v s).loByte = s.loByte := rfl
@[simp] theorem slice_haveLo (v : Word) (s : State) : (slice v s).haveLo = s.haveLo := rfl
@[simp] theorem slice_threshold (v : Word) (s : State) : (slice v s).threshold = s.threshold := rfl
@[simp] theorem slice_decCnt (v : Word) (s : State) : (slice v s).decCnt = s.decCnt := rfl
@[simp] theorem slice_fstate (v : Word) (s : State) : (slice v s).fstate = s.fstate := rfl
@[simp] theorem slice_syncReg (v : Word) (s : State) : (slice v s).syncReg = s.syncReg := rfl
@[simp] theorem slice_byteAcc (v : Word) (s : State) : (slice v s).byteAcc = s.byteAcc := rfl
@[simp] theorem slice_bitCnt (v : Word) (s : State) : (slice v s).bitCnt = s.bitCnt := rfl
@[simp] theorem slice_astate (v : Word) (s : State) : (slice v s).astate = s.astate := rfl
@[simp] theorem slice_length (v : Word) (s : State) : (slice v s).length = s.length := rfl
@[simp] theorem slice_offset (v : Word) (s : State) : (slice v s).offset = s.offset := rfl
@[simp] theorem slice_crcAcc (v : Word) (s : State) : (slice v s).crcAcc = s.crcAcc := rfl
@[simp] theorem slice_rxCrc (v : Word) (s : State) : (slice v s).rxCrc = s.rxCrc := rfl
@[simp] theorem slice_buf (v : Word) (s : State) : (slice v s).buf = s.buf := rfl
@[simp] theorem slice_events (v : Word) (s : State) : (slice v s).events = s.events := rfl
@[simp] theorem slice_endCode (v : Word) (s : State) : (slice v s).endCode = s.endCode := rfl
@[simp] theorem slice_bitTap (v : Word) (s : State) : (slice v s).bitTap = some (slicedBit v s.threshold) := rfl
@[simp] theorem slice_boundary (v : Word) (s : State) : (slice v s).boundary = s.boundary := rfl
@[simp] theorem slice_ended (v : Word) (s : State) : (slice v s).ended = s.ended := rfl
@[simp] theorem slice_crcOut (v : Word) (s : State) : (slice v s).crcOut = s.crcOut := rfl
@[simp] theorem slice_inputs (v : Word) (s : State) : (slice v s).inputs = s.inputs := rfl

@[simp] theorem asmCrcHi_cfg (d : Byte) (s : State) : (asmCrcHi d s).cfg = s.cfg := rfl
@[simp] theorem asmCrcHi_loByte (d : Byte) (s : State) : (asmCrcHi d s).loByte = s.loByte := rfl
@[simp] theorem asmCrcHi_haveLo (d : Byte) (s : State) : (asmCrcHi d s).haveLo = s.haveLo := rfl
@[simp] theorem asmCrcHi_threshold (d : Byte) (s : State) : (asmCrcHi d s).threshold = s.threshold := rfl
@[simp] theorem asmCrcHi_decCnt (d : Byte) (s : State) : (asmCrcHi d s).decCnt = s.decCnt := rfl
@[simp] theorem asmCrcHi_fstate (d : Byte) (s : State) : (asmCrcHi d s).fstate = s.fstate := rfl
@[simp] theorem asmCrcHi_syncReg (d : Byte) (s : State) : (asmCrcHi d s).syncReg = s.syncReg := rfl
@[simp] theorem asmCrcHi_byteAcc (d : Byte) (s : State) : (asmCrcHi d s).byteAcc = s.byteAcc := rfl
@[simp] theorem asmCrcHi_bitCnt (d : Byte) (s : State) : (asmCrcHi d s).bitCnt = s.bitCnt := rfl
@[simp] theorem asmCrcHi_astate (d : Byte) (s : State) : (asmCrcHi d s).astate = .readCrcLo := rfl
@[simp] theorem asmCrcHi_length (d : Byte) (s : State) : (asmCrcHi d s).length = s.length := rfl
@[simp] theorem asmCrcHi_offset (d : Byte) (s : State) : (asmCrcHi d s).offset = s.offset := rfl
@[simp] theorem asmCrcHi_crcAcc (d : Byte) (s : State) : (asmCrcHi d s).crcAcc = s.crcAcc := rfl
@[simp] theorem asmCrcHi_rxCrc (d : Byte) (s : State) : (asmCrcHi d s).rxCrc = d ++ 0x00#8 := rfl
@[simp] theorem asmCrcHi_buf (d : Byte) (s : State) : (asmCrcHi d s).buf = s.buf := rfl
@[simp] theorem asmCrcHi_events (d : Byte) (s : State) : (asmCrcHi d s).events = s.events := rfl
@[simp] theorem asmCrcHi_endCode (d : Byte) (s : State) : (asmCrcHi d s).endCode = s.endCode := rfl
@[simp] theorem asmCrcHi_bitTap (d : Byte) (s : State) : (asmCrcHi d s).bitTap = s.bitTap := rfl
@[simp] theorem asmCrcHi_boundary (d : Byte) (s : State) : (asmCrcHi d s).boundary = s.boundary := rfl
@[simp] theorem asmCrcHi_ended (d : Byte) (s : State) : (asmCrcHi d s).ended = false := rfl
@[simp] theorem asmCrcHi_crcOut (d : Byte) (s : State) : (asmCrcHi d s).crcOut = s.crcOut := rfl
@[simp] theorem asmCrcHi_inputs (d : Byte) (s : State) : (asmCrcHi d s).inputs = s.inputs := rfl

@[simp] theorem sessionInit_cfg (s : State) : (sessionInit s).cfg = s.cfg := rfl
@[simp] theorem sessionInit_loByte (s : State) : (sessionInit s).loByte = s.loByte := rfl
@[simp] theorem sessionInit_haveLo (s : State) : (sessionInit s).haveLo = s.haveLo := rfl
@[simp] theorem sessionInit_threshold (s : State) : (sessionInit s).threshold = s.threshold := rfl
@[simp] theorem sessionInit_decCnt (s : State) : (sessionInit s).decCnt = s.decCnt := rfl
@[simp] theorem sessionInit_fstate (s : State) : (sessionInit s).fstate = s.fstate := rfl
@[simp] theorem sessionInit_syncReg (s : State) : (sessionInit s).syncReg = s.syncReg := rfl
@[simp] theorem sessionInit_byteAcc (s : State) : (sessionInit s).byteAcc = s.byteAcc := rfl
@[simp] theorem sessionInit_bitCnt (s : State) : (sessionInit s).bitCnt = s.bitCnt := rfl
@[simp] theorem sessionInit_astate (s : State) : (sessionInit s).astate = .awaitLength := rfl
@[simp] theorem sessionInit_length (s : State) : (sessionInit s).length = s.length := rfl
@[simp] theorem sessionInit_offset (s : State) : (sessionInit s).offset = 0#8 := rfl
@[simp] theorem sessionInit_crcAcc (s : State) : (sessionInit s).crcAcc = s.cfg.crcSeed := rfl
@[simp] theorem sessionInit_rxCrc (s : State) : (sessionInit s).rxCrc = 0x0000#16 := rfl
@[simp] theorem sessionInit_buf (s : State) : (sessionInit s).buf = s.buf := rfl
@[simp] theorem sessionInit_events (s : State) : (sessionInit s).events = s.events := rfl
@[simp] theorem sessionInit_endCode (s : State) : (sessionInit s).endCode = s.endCode := rfl
@[simp] theorem sessionInit_bitTap (s : State) : (sessionInit s).bitTap = s.bitTap := rfl
@[simp] theorem sessionInit_boundary (s : State) : (sessionInit s).boundary = s.boundary := rfl
@[simp] theorem sessionInit_ended (s : State) : (sessionInit s).ended = s.ended := rfl
@[simp] theorem sessionInit_crcOut (s : State) : (sessionInit s).crcOut = s.crcOut := rfl
@[simp] theorem sessionInit_inputs (s : State) : (sessionInit s).inputs = s.inputs := rfl

@[simp] theorem sessionEnd_cfg (s : State) : (sessionEnd s).cfg = s.cfg := rfl
@[simp] theorem sessionEnd_loByte (s : State) : (sessionEnd s).loByte = s.loByte := rfl
@[simp] theorem sessionEnd_haveLo (s : State) : (sessionEnd s).haveLo = s.haveLo := rfl
@[simp] theorem sessionEnd_threshold (s : State) : (sessionEnd s).threshold = s.threshold := rfl
@[simp] theorem sessionEnd_decCnt (s : State) : (sessionEnd s).decCnt = s.decCnt := rfl
@[simp] theorem sessionEnd_fstate (s : State) : (sessionEnd s).fstate = .searching := rfl
@[simp] theorem sessionEnd_syncReg (s : State) : (sessionEnd s).syncReg = s.syncReg := rfl
@[simp] theorem sessionEnd_byteAcc (s : State) : (sessionEnd s).byteAcc = s.byteAcc := rfl
@[simp] theorem sessionEnd_bitCnt (s : State) : (sessionEnd s).bitCnt = s.bitCnt := rfl
@[simp] theorem sessionEnd_astate (s : State) : (sessionEnd s).astate = s.astate := rfl
@[simp] theorem sessionEnd_length (s : State) : (sessionEnd s).length = s.length := rfl
@[simp] theorem sessionEnd_offset (s : State) : (sessionEnd s).offset = s.offset := rfl
@[simp] theorem sessionEnd_crcAcc (s : State) : (sessionEnd s).crcAcc = s.crcAcc := rfl
@[simp] theorem sessionEnd_rxCrc (s : State) : (sessionEnd s).rxCrc = s.rxCrc := rfl
@[simp] theorem sessionEnd_buf (s : State) : (sessionEnd s).buf = s.buf := rfl
@[simp] theorem sessionEnd_events (s : State) : (sessionEnd s).events = s.events := rfl
@[simp] theorem sessionEnd_endCode (s : State) : (sessionEnd s).endCode = s.endCode := rfl
@[simp] theorem sessionEnd_bitTap (s : State) : (sessionEnd s).bitTap = s.bitTap := rfl
@[simp] theorem sessionEnd_boundary (s : State) : (sessionEnd s).boundary = s.boundary := rfl
@[simp] theorem sessionEnd_ended (s : State) : (sessionEnd s).ended = s.ended := rfl
@[simp] theorem sessionEnd_crcOut (s : State) : (sessionEnd s).crcOut = s.crcOut := rfl
@[simp] theorem sessionEnd_inputs (s : State) : (sessionEnd s).inputs = s.inputs := rfl

@[simp] theorem emit_cfg (e : Event) (s : State) : (emit e s).cfg = s.cfg := by unfold emit; split <;> rfl
@[simp] theorem emit_loByte (e : Event) (s : State) : (emit e s).loByte = s.loByte := by unfold emit; split <;> rfl
@[simp] theorem emit_haveLo (e : Event) (s : State) : (emit e s).haveLo = s.haveLo := by unfold emit; split <;> rfl
@[simp] theorem emit_threshold (e : Event) (s : State) : (emit e s).threshold = s.threshold := by unfold emit; split <;> rfl
@[simp] theorem emit_decCnt (e : Event) (s : State) : (emit e s).decCnt = s.decCnt := by unfold emit; split <;> rfl
@[simp] theorem emit_fstate (e : Event) (s : State) : (emit e s).fstate = s.fstate := by unfold emit; split <;> rfl
@[simp] theorem emit_syncReg (e : Event) (s : State) : (emit e s).syncReg = s.syncReg := by unfold emit; split <;> rfl
@[simp] theorem emit_byteAcc (e : Event) (s : State) : (emit e s).byteAcc = s.byteAcc := by unfold emit; split <;> rfl
@[simp] theorem emit_bitCnt (e : Event) (s : State) : (emit e s).bitCnt = s.bitCnt := by unfold emit; split <;> rfl
@[simp] theorem emit_astate (e : Event) (s : State) : (emit e s).astate = s.astate := by unfold emit; split <;> rfl
@[simp] theorem emit_length (e : Event) (s : State) : (emit e s).length = s.length := by unfold emit; split <;> rfl
@[simp] theorem emit_offset (e : Event) (s : State) : (emit e s).offset = s.offset := by unfold emit; split <;> rfl
@[simp] theorem emit_crcAcc (e : Event) (s : State) : (emit e s).crcAcc = s.crcAcc := by unfold emit; split <;> rfl
@[simp] theorem emit_rxCrc (e : Event) (s : State) : (emit e s).rxCrc = s.rxCrc := by unfold emit; split <;> rfl
@[simp] theorem emit_buf (e : Event) (s : State) : (emit e s).buf = s.buf := by unfold emit; split <;> rfl
@[simp] theorem emit_events (e : Event) (s : State) :
    (emit e s).events = s.events ++ if s.cfg.verbose || e.isPacket then [e] else [] := by
  unfold emit; split <;> simp [*]
@[simp] theorem emit_endCode (e : Event) (s : State) : (emit e s).endCode = s.endCode := by unfold emit; split <;> rfl
@[simp] theorem emit_bitTap (e : Event) (s : State) : (emit e s).bitTap = s.bitTap := by unfold emit; split <;> rfl
@[simp] theorem emit_boundary (e : Event) (s : State) : (emit e s).boundary = s.boundary := by unfold emit; split <;> rfl
@[simp] theorem emit_ended (e : Event) (s : State) : (emit e s).ended = s.ended := by unfold emit; split <;> rfl
@[simp] theorem emit_crcOut (e : Event) (s : State) : (emit e s).crcOut = s.crcOut := by unfold emit; split <;> rfl
@[simp] theorem emit_inputs (e : Event) (s : State) : (emit e s).inputs = s.inputs := by unfold emit; split <;> rfl

@[simp] theorem decimate_cfg (s : State) : (decimate s).cfg = s.cfg := by unfold decimate; split <;> rfl
@[simp] theorem decimate_loByte (s : State) : (decimate s).loByte = s.loByte := by unfold decimate; split <;> rfl
@[simp] theorem decimate_haveLo (s : State) : (decimate s).haveLo = s.haveLo := by unfold decimate; split <;> rfl
@[simp] theorem decimate_threshold (s : State) : (decimate s).threshold = s.threshold := by unfold decimate; split <;> rfl
@[simp] theorem decimate_decCnt (s : State) :
    (decimate s).decCnt = if s.decCnt = 1 then s.cfg.n else s.decCnt - 1 := by unfold decimate; split <;> rfl
@[simp] theorem decimate_fstate (s : State) : (decimate s).fstate = s.fstate := by unfold decimate; split <;> rfl
@[simp] theorem decimate_syncReg (s : State) : (decimate s).syncReg = s.syncReg := by unfold decimate; split <;> rfl
@[simp] theorem decimate_byteAcc (s : State) : (decimate s).byteAcc = s.byteAcc := by unfold decimate; split <;> rfl
@[simp] theorem decimate_bitCnt (s : State) : (decimate s).bitCnt = s.bitCnt := by unfold decimate; split <;> rfl
@[simp] theorem decimate_astate (s : State) : (decimate s).astate = s.astate := by unfold decimate; split <;> rfl
@[simp] theorem decimate_length (s : State) : (decimate s).length = s.length := by unfold decimate; split <;> rfl
@[simp] theorem decimate_offset (s : State) : (decimate s).offset = s.offset := by unfold decimate; split <;> rfl
@[simp] theorem decimate_crcAcc (s : State) : (decimate s).crcAcc = s.crcAcc := by unfold decimate; split <;> rfl
@[simp] theorem decimate_rxCrc (s : State) : (decimate s).rxCrc = s.rxCrc := by unfold decimate; split <;> rfl
@[simp] theorem decimate_buf (s : State) : (decimate s).buf = s.buf := by unfold decimate; split <;> rfl
@[simp] theorem decimate_events (s : State) : (decimate s).events = s.events := by unfold decimate; split <;> rfl
@[simp] theorem decimate_endCode (s : State) : (decimate s).endCode = s.endCode := by unfold decimate; split <;> rfl
@[simp] theorem decimate_bitTap (s : State) : (decimate s).bitTap = s.bitTap := by unfold decimate; split <;> rfl
@[simp] theorem decimate_boundary (s : State) : (decimate s).boundary = (s.decCnt == 1) := by
  unfold decimate; split <;> simp [*]
@[simp] theorem decimate_ended (s : State) : (decimate s).ended = s.ended := by unfold decimate; split <;> rfl
@[simp] theorem decimate_crcOut (s : State) : (decimate s).crcOut = s.crcOut := by unfold decimate; split <;> rfl
@[simp] theorem decimate_inputs (s : State) : (decimate s).inputs = s.inputs := by unfold decimate; split <;> rfl

@[simp] theorem endIfEnded_cfg (s : State) : (endIfEnded s).cfg = s.cfg := by unfold endIfEnded; split <;> rfl
@[simp] theorem endIfEnded_loByte (s : State) : (endIfEnded s).loByte = s.loByte := by unfold endIfEnded; split <;> rfl
@[simp] theorem endIfEnded_haveLo (s : State) : (endIfEnded s).haveLo = s.haveLo := by unfold endIfEnded; split <;> rfl
@[simp] theorem endIfEnded_threshold (s : State) : (endIfEnded s).threshold = s.threshold := by unfold endIfEnded; split <;> rfl
@[simp] theorem endIfEnded_decCnt (s : State) : (endIfEnded s).decCnt = s.decCnt := by unfold endIfEnded; split <;> rfl
@[simp] theorem endIfEnded_fstate (s : State) : (endIfEnded s).fstate = if s.ended then .searching else s.fstate := by unfold endIfEnded; split <;> simp_all
@[simp] theorem endIfEnded_syncReg (s : State) : (endIfEnded s).syncReg = s.syncReg := by unfold endIfEnded; split <;> rfl
@[simp] theorem endIfEnded_byteAcc (s : State) : (endIfEnded s).byteAcc = s.byteAcc := by unfold endIfEnded; split <;> rfl
@[simp] theorem endIfEnded_bitCnt (s : State) : (endIfEnded s).bitCnt = s.bitCnt := by unfold endIfEnded; split <;> rfl
@[simp] theorem endIfEnded_astate (s : State) : (endIfEnded s).astate = s.astate := by unfold endIfEnded; split <;> rfl
@[simp] theorem endIfEnded_length (s : State) : (endIfEnded s).length = s.length := by unfold endIfEnded; split <;> rfl
@[simp] theorem endIfEnded_offset (s : State) : (endIfEnded s).offset = s.offset := by unfold endIfEnded; split <;> rfl
@[simp] theorem endIfEnded_crcAcc (s : State) : (endIfEnded s).crcAcc = s.crcAcc := by unfold endIfEnded; split <;> rfl
@[simp] theorem endIfEnded_rxCrc (s : State) : (endIfEnded s).rxCrc = s.rxCrc := by unfold endIfEnded; split <;> rfl
@[simp] theorem endIfEnded_buf (s : State) : (endIfEnded s).buf = s.buf := by unfold endIfEnded; split <;> rfl
@[simp] theorem endIfEnded_events (s : State) : (endIfEnded s).events = s.events := by unfold endIfEnded; split <;> rfl
@[simp] theorem endIfEnded_endCode (s : State) : (endIfEnded s).endCode = s.endCode := by unfold endIfEnded; split <;> rfl
@[simp] theorem endIfEnded_bitTap (s : State) : (endIfEnded s).bitTap = s.bitTap := by unfold endIfEnded; split <;> rfl
@[simp] theorem endIfEnded_boundary (s : State) : (endIfEnded s).boundary = s.boundary := by unfold endIfEnded; split <;> rfl
@[simp] theorem endIfEnded_ended (s : State) : (endIfEnded s).ended = s.ended := by unfold endIfEnded; split <;> rfl
@[simp] theorem endIfEnded_crcOut (s : State) : (endIfEnded s).crcOut = s.crcOut := by unfold endIfEnded; split <;> rfl
@[simp] theorem endIfEnded_inputs (s : State) : (endIfEnded s).inputs = s.inputs := by unfold endIfEnded; split <;> rfl

/-- Emitting an event is appending it, or nothing, to the step's list (R147). -/
theorem emit_eq (e : Event) (s : State) :
    emit e s = { s with events := s.events ++ if s.cfg.verbose || e.isPacket then [e] else [] } := by
  unfold emit; split <;> simp [*]

end Sys2Proof.Machine
end

