-- ==== Sys2Proof/Laws/Ops.lean ====
section
/-! SUPPORT. What each shared operation can do, said once: sequencing, the configuration check, the framer's and the
assembler's operations as equations and as cases. -/

namespace Sys2Proof.Machine

@[simp] theorem andThen_next (s : State) (k : State → Answer) : andThen (.next s) k = k s := rfl
@[simp] theorem andThen_refused (r : Refusal) (k : State → Answer) : andThen (.refused r) k = .refused r := rfl

/-- Sequencing answers a next state exactly when the first part does and the second does on what it left. -/
theorem andThen_eq_next {o : Answer} {k : State → Answer} {t : State} :
    andThen o k = .next t ↔ ∃ u, o = .next u ∧ k u = .next t := by
  cases o <;> simp [andThen]

theorem andThen_assoc (o : Answer) (k l : State → Answer) :
    andThen (andThen o k) l = andThen o fun s => andThen (k s) l := by
  cases o <;> rfl

theorem andThen_next_right (o : Answer) : andThen o .next = o := by
  cases o <;> rfl

/-- With `N ≥ 2` the check passes. -/
theorem configured_of {s : State} (h : 2 ≤ s.cfg.n) (t : State) : configured s t = .next t := by
  simp [configured, h]

/-- An instruction answers a next state exactly when the check passes, and then it is its effect. -/
theorem configured_eq_next {s t u : State} : configured s u = .next t ↔ 2 ≤ s.cfg.n ∧ u = t := by
  unfold configured; split <;> simp_all

/-- `BIT` is one of the two framer operations (R131). -/
theorem receiveBit_searching {s : State} (h : s.fstate = .searching) (b : Bit) : receiveBit b s = syncShift b s := by
  simp [receiveBit, h]

theorem receiveBit_synced {s : State} (h : s.fstate = .synced) (b : Bit) : receiveBit b s = byteShift b s := by
  simp [receiveBit, h]

/-- What `SYNC_SHIFT` does: a match starts a session, anything else writes `sync_reg` only (R100). -/
theorem syncShift_cases (b : Bit) (s : State) :
    (isSyncWord (shiftIntoSync s.syncReg b) = true ∧
      syncShift b s =
        { s with
          syncReg := shiftIntoSync s.syncReg b, fstate := .synced, bitCnt := 8#4
          astate := .awaitLength, offset := 0#8, crcAcc := s.cfg.crcSeed, rxCrc := 0x0000#16
          events := s.events ++ if s.cfg.verbose then [.sync (shiftIntoSync s.syncReg b)] else [] }) ∨
    (isSyncWord (shiftIntoSync s.syncReg b) = false ∧
      syncShift b s = { s with syncReg := shiftIntoSync s.syncReg b }) := by
  by_cases h : isSyncWord (shiftIntoSync s.syncReg b) = true
  · exact .inl ⟨h, by simp [syncShift, h, emit_eq, sessionInit, Event.isPacket]⟩
  · exact .inr ⟨by simpa using h, by simp [syncShift, h]⟩

/-- What `BYTE_SHIFT` does: before the eighth bit it counts, on it it delivers (R104). -/
theorem byteShift_mid {s : State} (h : s.bitCnt ≠ 1#4) (b : Bit) :
    byteShift b s = { s with byteAcc := shiftIntoByte s.byteAcc b, bitCnt := s.bitCnt - 1#4 } := by
  simp [byteShift, h]

theorem byteShift_last {s : State} (h : s.bitCnt = 1#4) (b : Bit) :
    byteShift b s =
      endIfEnded
        (deliverByte (shiftIntoByte s.byteAcc b) { s with byteAcc := shiftIntoByte s.byteAcc b, bitCnt := 8#4 }) := by
  simp [byteShift, h]

/-- `ASM_LENGTH` on a legal length (R114). -/
theorem asmLength_legal {d : Byte} (h : d ≠ 0xFF#8) (s : State) :
    asmLength d s =
      { s with
        length := d, crcAcc := crcByte s.crcAcc d, crcOut := some (crcByte s.crcAcc d)
        astate := if d = 0#8 then .readCrcHi else .readPayload, ended := false
        events := s.events ++ if s.cfg.verbose then [.length d] else [] } := by
  have : ¬ maxLen < d.toNat := by simp only [maxLen]; bv_omega
  simp [asmLength, this, emit_eq, crcAccumulate, crcUpdate, Event.isPacket]

/-- `ASM_LENGTH` on 255 (R114, R142). -/
theorem asmLength_oversize (s : State) :
    asmLength 0xFF#8 s =
      { s with
        length := 0xFF#8, crcAcc := crcByte s.crcAcc 0xFF#8, crcOut := some (crcByte s.crcAcc 0xFF#8)
        endCode := .rejectedOversize, ended := true
        events := s.events ++ if s.cfg.verbose then [.oversize 0xFF#8] else [] } := by
  simp [asmLength, maxLen, emit_eq, crcAccumulate, crcUpdate, Event.isPacket]

/-- What `ASM_PAYLOAD` does (R115). -/
theorem asmPayload_eq (d : Byte) (s : State) :
    asmPayload d s =
      { s with
        buf := if s.offset.toNat < bufCap then Memory.write s.buf s.offset.toNat d else s.buf
        crcAcc := crcByte s.crcAcc d, crcOut := some (crcByte s.crcAcc d)
        offset := s.offset + 1, ended := false
        astate := if s.offset + 1 = s.length then .readCrcHi else s.astate } := by
  unfold asmPayload bufWrite
  split <;> rfl

/-- `ASM_PAYLOAD` inside the buffer. -/
theorem asmPayload_inside {s : State} (h : s.offset.toNat < bufCap) (d : Byte) :
    asmPayload d s =
      { s with
        buf := Memory.write s.buf s.offset.toNat d
        crcAcc := crcByte s.crcAcc d, crcOut := some (crcByte s.crcAcc d)
        offset := s.offset + 1, ended := false
        astate := if s.offset + 1 = s.length then .readCrcHi else s.astate } := by
  rw [asmPayload_eq, if_pos h]

/-- `ASM_CRC_LO` on equal checksums (R117, R118). -/
theorem asmCrcLo_accept {s : State} {d : Byte}
    (h : complementChecksum (checksumOfBytes s.rxCrc d) = s.crcAcc) :
    asmCrcLo d s =
      { s with
        rxCrc := s.crcAcc, ended := true, endCode := .accepted
        events := s.events ++ [.packet s.length (readPayload s)] } := by
  simp [asmCrcLo, h, emit_eq, Event.isPacket, readPayload, bufRead]

/-- `ASM_CRC_LO` on unequal checksums (R117, R119, R143). -/
theorem asmCrcLo_reject {s : State} {d : Byte}
    (h : complementChecksum (checksumOfBytes s.rxCrc d) ≠ s.crcAcc) :
    asmCrcLo d s =
      { s with
        rxCrc := complementChecksum (checksumOfBytes s.rxCrc d), ended := true, endCode := .rejectedCrc
        events := s.events ++
          if s.cfg.verbose then [.crcMismatch (complementChecksum (checksumOfBytes s.rxCrc d)) s.crcAcc] else [] } := by
  simp [asmCrcLo, h, emit_eq, Event.isPacket]

/-- What `ASM_LENGTH` can do (R114): a legal length, or 255. -/
theorem asmLength_cases (d : Byte) (s : State) :
    (d ≠ 0xFF#8 ∧ asmLength d s =
      { s with
        length := d, crcAcc := crcByte s.crcAcc d, crcOut := some (crcByte s.crcAcc d)
        astate := if d = 0#8 then .readCrcHi else .readPayload, ended := false
        events := s.events ++ if s.cfg.verbose then [.length d] else [] }) ∨
    (d = 0xFF#8 ∧ asmLength d s =
      { s with
        length := d, crcAcc := crcByte s.crcAcc d, crcOut := some (crcByte s.crcAcc d)
        endCode := .rejectedOversize, ended := true
        events := s.events ++ if s.cfg.verbose then [.oversize d] else [] }) := by
  by_cases h : d = 0xFF#8
  · subst h; exact .inr ⟨rfl, asmLength_oversize s⟩
  · exact .inl ⟨h, asmLength_legal h s⟩

/-- What `ASM_CRC_LO` can do (R117): accept or reject. -/
theorem asmCrcLo_cases (d : Byte) (s : State) :
    (complementChecksum (checksumOfBytes s.rxCrc d) = s.crcAcc ∧
      asmCrcLo d s =
        { s with
          rxCrc := s.crcAcc, ended := true, endCode := .accepted
          events := s.events ++ [.packet s.length (readPayload s)] }) ∨
    (complementChecksum (checksumOfBytes s.rxCrc d) ≠ s.crcAcc ∧
      asmCrcLo d s =
        { s with
          rxCrc := complementChecksum (checksumOfBytes s.rxCrc d), ended := true, endCode := .rejectedCrc
          events := s.events ++
            if s.cfg.verbose then [.crcMismatch (complementChecksum (checksumOfBytes s.rxCrc d)) s.crcAcc]
            else [] }) := by
  by_cases h : complementChecksum (checksumOfBytes s.rxCrc d) = s.crcAcc
  · exact .inl ⟨h, asmCrcLo_accept h⟩
  · exact .inr ⟨h, asmCrcLo_reject h⟩

/-- What `BYTE` does: one of the assembler's operations, on `astate` (R113, R132). -/
theorem deliverByte_cases (d : Byte) (s : State) :
    (s.astate = .awaitLength ∧ deliverByte d s = asmLength d s) ∨
    (s.astate = .readPayload ∧ deliverByte d s = asmPayload d s) ∨
    (s.astate = .readCrcHi ∧ deliverByte d s = asmCrcHi d s) ∨
    (s.astate = .readCrcLo ∧ deliverByte d s = asmCrcLo d s) := by
  cases h : s.astate <;> simp [deliverByte, h]

/-- What `SAMPLE` does: off a boundary the slicer's registers only, on one the bit goes to the framer (R130). -/
theorem sampleStep_off {s : State} (h : s.decCnt ≠ 1) (v : Word) :
    sampleStep v s =
      { s with
        threshold := nextThreshold s.cfg v s.threshold, decCnt := s.decCnt - 1, boundary := false } := by
  simp [sampleStep, sliceAtBoundary, decimate, thrUpdate, h]

theorem sampleStep_on {s : State} (h : s.decCnt = 1) (v : Word) :
    sampleStep v s =
      receiveBit (slicedBit v (nextThreshold s.cfg v s.threshold))
        { s with
          threshold := nextThreshold s.cfg v s.threshold, decCnt := s.cfg.n, boundary := true
          bitTap := some (slicedBit v (nextThreshold s.cfg v s.threshold)) } := by
  simp [sampleStep, sliceAtBoundary, decimate, thrUpdate, slice, h]

/-- Receiving bits one after another. -/
@[simp] theorem receiveBits_nil (s : State) : receiveBits [] s = s := rfl

theorem receiveBits_cons (b : Bit) (bs : List Bit) (s : State) :
    receiveBits (b :: bs) s = receiveBits bs (receiveBit b s) := rfl

theorem receiveBits_append (bs cs : List Bit) (s : State) :
    receiveBits (bs ++ cs) s = receiveBits cs (receiveBits bs s) := by
  induction bs generalizing s with
  | nil => rfl
  | cons b bs ih => exact ih (receiveBit b s)

/-- Bits that complete no sync word write `sync_reg` only (R100, R101). -/
theorem receiveBits_searching {bs : List Bit} {s : State} (hf : s.fstate = .searching)
    (hn : ∀ k, 1 ≤ k → k ≤ bs.length → isSyncWord ((bs.take k).foldl shiftIntoSync s.syncReg) = false) :
    receiveBits bs s = { s with syncReg := bs.foldl shiftIntoSync s.syncReg } := by
  induction bs generalizing s with
  | nil => rfl
  | cons b bs ih =>
    have h1 : isSyncWord (shiftIntoSync s.syncReg b) = false := by simpa using hn 1 (by omega) (by simp)
    rw [receiveBits_cons, receiveBit_searching hf]
    rcases syncShift_cases b s with ⟨e, _⟩ | ⟨_, e⟩
    · rw [e] at h1; cases h1
    · rw [e, ih]
      · rfl
      · exact hf
      · intro k hk hk2
        simpa using hn (k + 1) (by omega) (by simpa using hk2)

end Sys2Proof.Machine
end

