-- ==== Sys2Proof/Laws/Frames.lean ====
section
/-! SUPPORT. What the framer's and the assembler's operations leave unchanged, what they can do to the payload buffer and to
the step's events, and what they read, said once per shared operation (10_state.md R38, 20_memory.md R42). -/

namespace Sys2Proof.Machine

/-- The configuration, the front end, the slicer's registers and taps, and the inputs agree. -/
structure SlicerSame (s t : State) : Prop where
  cfg : t.cfg = s.cfg
  loByte : t.loByte = s.loByte
  haveLo : t.haveLo = s.haveLo
  inputs : t.inputs = s.inputs
  threshold : t.threshold = s.threshold
  decCnt : t.decCnt = s.decCnt
  bitTap : t.bitTap = s.bitTap
  boundary : t.boundary = s.boundary

theorem SlicerSame.refl (s : State) : SlicerSame s s := ⟨rfl, rfl, rfl, rfl, rfl, rfl, rfl, rfl⟩

theorem SlicerSame.trans {s t u : State} (h : SlicerSame s t) (k : SlicerSame t u) : SlicerSame s u :=
  ⟨k.cfg.trans h.cfg, k.loByte.trans h.loByte, k.haveLo.trans h.haveLo, k.inputs.trans h.inputs,
    k.threshold.trans h.threshold, k.decCnt.trans h.decCnt, k.bitTap.trans h.bitTap, k.boundary.trans h.boundary⟩

/-- `BYTE` leaves the slicer, `sync_reg`, `byte_acc`, `bit_cnt` and `fstate`. -/
theorem deliverByte_frame (d : Byte) (s : State) :
    SlicerSame s (deliverByte d s) ∧ (deliverByte d s).syncReg = s.syncReg ∧ (deliverByte d s).byteAcc = s.byteAcc ∧
      (deliverByte d s).bitCnt = s.bitCnt ∧ (deliverByte d s).fstate = s.fstate := by
  rcases deliverByte_cases d s with ⟨_, e⟩ | ⟨_, e⟩ | ⟨_, e⟩ | ⟨_, e⟩ <;> rw [e]
  · rcases asmLength_cases d s with ⟨_, e⟩ | ⟨_, e⟩ <;> rw [e] <;>
      exact ⟨⟨rfl, rfl, rfl, rfl, rfl, rfl, rfl, rfl⟩, rfl, rfl, rfl, rfl⟩
  · rw [asmPayload_eq]; exact ⟨⟨rfl, rfl, rfl, rfl, rfl, rfl, rfl, rfl⟩, rfl, rfl, rfl, rfl⟩
  · exact ⟨⟨rfl, rfl, rfl, rfl, rfl, rfl, rfl, rfl⟩, rfl, rfl, rfl, rfl⟩
  · rcases asmCrcLo_cases d s with ⟨_, e⟩ | ⟨_, e⟩ <;> rw [e] <;>
      exact ⟨⟨rfl, rfl, rfl, rfl, rfl, rfl, rfl, rfl⟩, rfl, rfl, rfl, rfl⟩

/-- `ASM_LENGTH` stores nothing. -/
theorem asmLength_buf (d : Byte) (s : State) : (asmLength d s).buf = s.buf := by
  rcases asmLength_cases d s with ⟨_, e⟩ | ⟨_, e⟩ <;> rw [e]

/-- `ASM_CRC_LO` stores nothing. -/
theorem asmCrcLo_buf (d : Byte) (s : State) : (asmCrcLo d s).buf = s.buf := by
  rcases asmCrcLo_cases d s with ⟨_, e⟩ | ⟨_, e⟩ <;> rw [e]

/-- `SYNC_SHIFT` stores nothing. -/
theorem syncShift_buf (b : Bit) (s : State) : (syncShift b s).buf = s.buf := by
  rcases syncShift_cases b s with ⟨_, e⟩ | ⟨_, e⟩ <;> rw [e]

/-- `BYTE` writes the payload buffer in `READ_PAYLOAD` only, at `offset` only (R42). -/
theorem deliverByte_buf (d : Byte) (s : State) :
    (deliverByte d s).buf = if s.astate = .readPayload then (bufWrite s.offset.toNat d s).buf else s.buf := by
  rcases deliverByte_cases d s with ⟨ha, e⟩ | ⟨ha, e⟩ | ⟨ha, e⟩ | ⟨ha, e⟩ <;> rw [e, ha]
  · exact asmLength_buf d s
  · rfl
  · rfl
  · exact asmCrcLo_buf d s

/-- `SESSION_END` or nothing leaves the slicer. -/
theorem endIfEnded_frame (s : State) : SlicerSame s (endIfEnded s) :=
  ⟨by simp, by simp, by simp, by simp, by simp, by simp, by simp, by simp⟩

/-- `BYTE_SHIFT` leaves the slicer and `sync_reg`. -/
theorem byteShift_frame (b : Bit) (s : State) : SlicerSame s (byteShift b s) ∧ (byteShift b s).syncReg = s.syncReg := by
  by_cases h : s.bitCnt = 1#4
  · rw [byteShift_last h]
    obtain ⟨hs, hr, _⟩ := deliverByte_frame (shiftIntoByte s.byteAcc b)
      { s with byteAcc := shiftIntoByte s.byteAcc b, bitCnt := 8#4 }
    exact ⟨SlicerSame.trans ⟨hs.cfg, hs.loByte, hs.haveLo, hs.inputs, hs.threshold, hs.decCnt, hs.bitTap, hs.boundary⟩
      (endIfEnded_frame _), by simpa using hr⟩
  · rw [byteShift_mid h]; exact ⟨⟨rfl, rfl, rfl, rfl, rfl, rfl, rfl, rfl⟩, rfl⟩

/-- `BYTE_SHIFT` changes the buffer on the eighth bit in `READ_PAYLOAD` only, and then by a store at `offset` (R42). -/
theorem byteShift_buf (b : Bit) (s : State) :
    (byteShift b s).buf =
      if s.bitCnt = 1#4 ∧ s.astate = .readPayload then
        (bufWrite s.offset.toNat (shiftIntoByte s.byteAcc b) s).buf
      else s.buf := by
  by_cases h : s.bitCnt = 1#4
  · rw [byteShift_last h, endIfEnded_buf, deliverByte_buf]
    by_cases ha : s.astate = .readPayload
    · simp only [h, ha, and_self, if_true]; unfold bufWrite; split <;> rfl
    · simp [ha]
  · rw [byteShift_mid h]; simp [h]

/-- `BIT` leaves the slicer. -/
theorem receiveBit_frame (b : Bit) (s : State) : SlicerSame s (receiveBit b s) := by
  cases hf : s.fstate with
  | searching =>
    rw [receiveBit_searching hf]
    rcases syncShift_cases b s with ⟨_, e⟩ | ⟨_, e⟩ <;> rw [e] <;> exact ⟨rfl, rfl, rfl, rfl, rfl, rfl, rfl, rfl⟩
  | synced => rw [receiveBit_synced hf]; exact (byteShift_frame b s).1

/-- Bits received leave the slicer. -/
theorem receiveBits_frame (bs : List Bit) (s : State) : SlicerSame s (receiveBits bs s) := by
  induction bs generalizing s with
  | nil => exact SlicerSame.refl s
  | cons b bs ih => exact (receiveBit_frame b s).trans (ih _)

/-- Seven bits into a byte: nothing but the accumulator and the counter has changed. -/
theorem receiveBits_midByte {bs : List Bit} {s : State} (hf : s.fstate = .synced) (hb : bs.length < s.bitCnt.toNat) :
    receiveBits bs s =
      { s with byteAcc := bs.foldl shiftIntoByte s.byteAcc, bitCnt := s.bitCnt - BitVec.ofNat 4 bs.length } := by
  induction bs generalizing s with
  | nil => simp
  | cons b bs ih =>
    simp only [List.length_cons] at hb
    have h1 : s.bitCnt ≠ 1#4 := by rintro h; rw [h] at hb; simp at hb
    rw [receiveBits_cons, receiveBit_synced hf, byteShift_mid h1, ih (by exact hf) (by simp only; bv_omega)]
    simp only [List.foldl_cons, List.length_cons, State.mk.injEq, true_and, and_true]
    have := s.bitCnt.isLt
    apply BitVec.eq_of_toNat_eq
    simp only [BitVec.toNat_sub, BitVec.toNat_ofNat]
    omega

/-- A whole byte at a byte boundary is delivered as it is (R105). -/
theorem receiveByte_aligned {s : State} (hf : s.fstate = .synced) (hb : s.bitCnt = 8#4) (d : Byte) :
    receiveByte d s = endIfEnded (deliverByte d { s with byteAcc := d }) := by
  obtain ⟨front, last, hsplit, hlen⟩ : ∃ front last, msbFirst d = front ++ [last] ∧ front.length = 7 :=
    ⟨(msbFirst d).take 7, d.extractLsb' 0 1, rfl, rfl⟩
  have hd := shift_byte s.byteAcc d
  rw [hsplit, List.foldl_append, List.foldl_cons, List.foldl_nil] at hd
  rw [receiveByte, hsplit, receiveBits_append, receiveBits_midByte hf (by rw [hb, hlen]; decide), receiveBits_cons,
    receiveBits_nil, receiveBit_synced (by exact hf), byteShift_last (by simp only [hb, hlen]; decide)]
  simp only [hd]
  have : { s with byteAcc := d, bitCnt := 8#4 } = { s with byteAcc := d } := by rw [← hb]
  rw [this]

/-- `SAMPLE` leaves the configuration, the front end and the inputs, and updates the threshold (R33 (c), R130). -/
theorem sampleStep_frame (v : Word) (s : State) :
    (sampleStep v s).cfg = s.cfg ∧ (sampleStep v s).loByte = s.loByte ∧ (sampleStep v s).haveLo = s.haveLo ∧
      (sampleStep v s).inputs = s.inputs ∧ (sampleStep v s).threshold = nextThreshold s.cfg v s.threshold := by
  by_cases h : s.decCnt = 1
  · rw [sampleStep_on h]
    generalize hx : State.mk .. = x
    have f := receiveBit_frame (slicedBit v (nextThreshold s.cfg v s.threshold)) x
    rw [f.cfg, f.loByte, f.haveLo, f.inputs, f.threshold, ← hx]
    exact ⟨rfl, rfl, rfl, rfl, rfl⟩
  · rw [sampleStep_off h]; exact ⟨rfl, rfl, rfl, rfl, rfl⟩

/-- `BYTE` appends at most one event (R149). -/
theorem deliverByte_events (d : Byte) (s : State) :
    ∃ l, (deliverByte d s).events = s.events ++ l ∧ l.length ≤ 1 := by
  rcases deliverByte_cases d s with ⟨_, e⟩ | ⟨_, e⟩ | ⟨_, e⟩ | ⟨_, e⟩ <;> rw [e]
  · rcases asmLength_cases d s with ⟨_, e⟩ | ⟨_, e⟩ <;> rw [e] <;> refine ⟨_, rfl, ?_⟩ <;> split <;> simp
  · exact ⟨[], by simp [asmPayload_eq], by simp⟩
  · exact ⟨[], by simp, by simp⟩
  · rcases asmCrcLo_cases d s with ⟨_, e⟩ | ⟨_, e⟩ <;> rw [e] <;> refine ⟨_, rfl, ?_⟩
    · simp
    · split <;> simp

/-- `BIT` appends at most one event (R149). -/
theorem receiveBit_events (b : Bit) (s : State) : ∃ l, (receiveBit b s).events = s.events ++ l ∧ l.length ≤ 1 := by
  cases hf : s.fstate with
  | searching =>
    rw [receiveBit_searching hf]
    rcases syncShift_cases b s with ⟨_, e⟩ | ⟨_, e⟩ <;> rw [e]
    · refine ⟨_, rfl, ?_⟩; split <;> simp
    · exact ⟨[], by simp, by simp⟩
  | synced =>
    rw [receiveBit_synced hf]
    by_cases h : s.bitCnt = 1#4
    · rw [byteShift_last h, endIfEnded_events]
      exact deliverByte_events _ { s with byteAcc := shiftIntoByte s.byteAcc b, bitCnt := 8#4 }
    · rw [byteShift_mid h]; exact ⟨[], by simp, by simp⟩

/-- The bytes below an address depend on the buffer alone. -/
theorem bufPrefix_congr {s t : State} (h : t.buf = s.buf) (k : Nat) :
    (List.range k).map (bufRead t) = (List.range k).map (bufRead s) := by
  unfold bufRead; rw [h]

/-- Storing at `k` extends the bytes below `k` by the byte stored (R124). -/
theorem bufPrefix_write {s t : State} {d : Byte} (k : Nat) (h : t.buf = Memory.write s.buf k d) :
    (List.range (k + 1)).map (bufRead t) = (List.range k).map (bufRead s) ++ [d] := by
  rw [List.range_succ, List.map_append]
  congr 1
  · apply List.map_congr_left
    intro a ha
    have : a ≠ k := by have := List.mem_range.1 ha; omega
    simp [bufRead, h, this]
  · simp [bufRead, h]

/-- The framer's and the assembler's registers, the buffer and the configuration agree. -/
structure FramerSame (s t : State) : Prop where
  cfg : t.cfg = s.cfg
  fstate : t.fstate = s.fstate
  syncReg : t.syncReg = s.syncReg
  byteAcc : t.byteAcc = s.byteAcc
  bitCnt : t.bitCnt = s.bitCnt
  astate : t.astate = s.astate
  length : t.length = s.length
  offset : t.offset = s.offset
  crcAcc : t.crcAcc = s.crcAcc
  rxCrc : t.rxCrc = s.rxCrc
  buf : t.buf = s.buf

/-- The payload read depends on `length` and the buffer alone. -/
theorem readPayload_congr {s t : State} (h : FramerSame s t) : readPayload t = readPayload s := by
  unfold readPayload bufRead; rw [h.length, h.buf]

/-- `BYTE` reads nothing but the framer's and the assembler's view, and appends the same events. -/
theorem deliverByte_congr (d : Byte) {s t : State} (h : FramerSame s t) :
    FramerSame (deliverByte d s) (deliverByte d t) ∧ (deliverByte d t).ended = (deliverByte d s).ended ∧
      ∃ l, (deliverByte d s).events = s.events ++ l ∧ (deliverByte d t).events = t.events ++ l := by
  have ha := h.astate
  have hp := readPayload_congr h
  obtain ⟨h1, h2, h3, h4, h5, h6, h7, h8, h9, h10, h11⟩ := h
  unfold deliverByte
  rw [ha]
  cases hs : s.astate with
  | awaitLength =>
    by_cases hd : d = 0xFF#8
    · subst hd
      simp only [asmLength_oversize]
      exact ⟨⟨h1, h2, h3, h4, h5, h6, rfl, h8, by rw [h9], h10, h11⟩, trivial, _, rfl, by rw [h1]⟩
    · simp only [asmLength_legal hd]
      exact ⟨⟨h1, h2, h3, h4, h5, rfl, rfl, h8, by rw [h9], h10, h11⟩, trivial, _, rfl, by rw [h1]⟩
  | readPayload =>
    simp only [asmPayload_eq]
    exact ⟨⟨h1, h2, h3, h4, h5, by rw [h6, h7, h8], h7, by rw [h8], by rw [h9], h10, by rw [h8, h11]⟩, trivial, [], by simp, by simp⟩
  | readCrcHi => exact ⟨⟨h1, h2, h3, h4, h5, rfl, h7, h8, h9, rfl, h11⟩, rfl, [], by simp, by simp⟩
  | readCrcLo =>
    by_cases hc : complementChecksum (checksumOfBytes s.rxCrc d) = s.crcAcc
    · simp only [asmCrcLo_accept hc, asmCrcLo_accept (s := t) (by rw [h10, h9]; exact hc)]
      exact ⟨⟨h1, h2, h3, h4, h5, h6, h7, h8, h9, h9, h11⟩, trivial, _, rfl, by rw [h7, hp]⟩
    · simp only [asmCrcLo_reject hc, asmCrcLo_reject (s := t) (by rw [h10, h9]; exact hc)]
      exact ⟨⟨h1, h2, h3, h4, h5, h6, h7, h8, h9, by rw [h10], h11⟩, trivial, _, rfl, by rw [h1, h10, h9]⟩

/-- `BIT` reads nothing but the framer's and the assembler's view, and appends the same events. -/
theorem receiveBit_congr (b : Bit) {s t : State} (h : FramerSame s t) :
    FramerSame (receiveBit b s) (receiveBit b t) ∧
      ∃ l, (receiveBit b s).events = s.events ++ l ∧ (receiveBit b t).events = t.events ++ l := by
  have hf := h.fstate
  cases hs : s.fstate with
  | searching =>
    rw [hs] at hf
    rw [receiveBit_searching hs, receiveBit_searching hf]
    obtain ⟨h1, h2, h3, h4, h5, h6, h7, h8, h9, h10, h11⟩ := h
    rcases syncShift_cases b s with ⟨e1, e⟩ | ⟨e1, e⟩ <;> rcases syncShift_cases b t with ⟨f1, f⟩ | ⟨f1, f⟩
    · rw [e, f]
      exact ⟨⟨h1, rfl, by rw [h3], h4, rfl, rfl, h7, rfl, by rw [h1], rfl, h11⟩, _, rfl, by rw [h1, h3]⟩
    · rw [h3, e1] at f1; cases f1
    · rw [h3, e1] at f1; cases f1
    · rw [e, f]
      exact ⟨⟨h1, h2, by rw [h3], h4, h5, h6, h7, h8, h9, h10, h11⟩, [], by simp, by simp⟩
  | synced =>
    rw [hs] at hf
    rw [receiveBit_synced hs, receiveBit_synced hf]
    by_cases hb : s.bitCnt = 1#4
    · rw [byteShift_last hb, byteShift_last (s := t) (by rw [h.bitCnt]; exact hb), h.byteAcc]
      obtain ⟨g, he, l, e1, e2⟩ := deliverByte_congr (shiftIntoByte s.byteAcc b)
        (s := { s with byteAcc := shiftIntoByte s.byteAcc b, bitCnt := 8#4 })
        (t := { t with byteAcc := shiftIntoByte s.byteAcc b, bitCnt := 8#4 })
        ⟨h.cfg, h.fstate, h.syncReg, rfl, rfl, h.astate, h.length, h.offset, h.crcAcc, h.rxCrc, h.buf⟩
      refine ⟨?_, l, by simpa using e1, by simpa using e2⟩
      constructor <;> simp [g.cfg, g.fstate, g.syncReg, g.byteAcc, g.bitCnt, g.astate, g.length, g.offset, g.crcAcc,
        g.rxCrc, g.buf, he]
    · rw [byteShift_mid hb, byteShift_mid (s := t) (by rw [h.bitCnt]; exact hb)]
      exact ⟨⟨h.cfg, h.fstate, h.syncReg, by rw [h.byteAcc], by rw [h.bitCnt], h.astate, h.length, h.offset, h.crcAcc,
        h.rxCrc, h.buf⟩, [], by simp, by simp⟩

end Sys2Proof.Machine
end

