-- ==== Sys2Proof/Laws/PerInstr.lean ====
section
/-! SUPPORT. Per instruction: the encoder's first word is the table's word of that row (30_encoding.md R69, R70), for
every value of the operands. -/

namespace Sys2Proof.Laws.EncodesItsTableRow

/-- The encoding, numbered as spec/opcode_table.json numbers it, has the row's match bits under the row's mask. -/
def Statement (i : Instr) : Prop :=
  tableNumber i (encode i).2 &&& (tableRow i).2.1 = (tableRow i).2.2

theorem reset : Statement .reset := by simp [Statement, tableNumber, encode, tableRow, cwByte]
theorem idle : Statement .idle := by simp [Statement, tableNumber, encode, tableRow, cwByte]
theorem sample (s : Word) : Statement (.sample s) := by simp [Statement, tableNumber, encode, tableRow, cwByte]
theorem thrUpdate (s : Word) : Statement (.thrUpdate s) := by simp [Statement, tableNumber, encode, tableRow, cwByte]
theorem decimate : Statement .decimate := by simp [Statement, tableNumber, encode, tableRow, cwByte]
theorem slice (s : Word) : Statement (.slice s) := by simp [Statement, tableNumber, encode, tableRow, cwByte]
theorem syncShift (b : Bit) : Statement (.syncShift b) := by simp [Statement, tableNumber, encode, tableRow, cwByte]
theorem sessionInit : Statement .sessionInit := by simp [Statement, tableNumber, encode, tableRow, cwByte]
theorem byteShift (b : Bit) : Statement (.byteShift b) := by simp [Statement, tableNumber, encode, tableRow, cwByte]
theorem asmLength (d : Byte) : Statement (.asmLength d) := by simp [Statement, tableNumber, encode, tableRow, cwByte]
theorem asmPayload (d : Byte) : Statement (.asmPayload d) := by simp [Statement, tableNumber, encode, tableRow, cwByte]
theorem asmCrcHi (d : Byte) : Statement (.asmCrcHi d) := by simp [Statement, tableNumber, encode, tableRow, cwByte]
theorem asmCrcLo (d : Byte) : Statement (.asmCrcLo d) := by simp [Statement, tableNumber, encode, tableRow, cwByte]
theorem crcUpdate (crc : Word) (d : Byte) : Statement (.crcUpdate crc d) := by simp [Statement, tableNumber, encode, tableRow, cwByte]
theorem sessionEnd : Statement .sessionEnd := by simp [Statement, tableNumber, encode, tableRow, cwByte]
theorem byteIn (b : Byte) : Statement (.byteIn b) := by simp [Statement, tableNumber, encode, tableRow]
theorem wireSyncWord : Statement .wireSyncWord := by simp [Statement, tableNumber, encode, tableRow]
theorem wireSyncWordInv : Statement .wireSyncWordInv := by simp [Statement, tableNumber, encode, tableRow]
theorem wireLen (l : Byte) : Statement (.wireLen l) := by simp [Statement, tableNumber, encode, tableRow]
theorem wireLenOversize : Statement .wireLenOversize := by simp [Statement, tableNumber, encode, tableRow]
theorem wirePayloadByte (p : Byte) : Statement (.wirePayloadByte p) := by simp [Statement, tableNumber, encode, tableRow]
theorem wireCrcHi (c : Byte) : Statement (.wireCrcHi c) := by simp [Statement, tableNumber, encode, tableRow]
theorem wireCrcLo (c : Byte) : Statement (.wireCrcLo c) := by simp [Statement, tableNumber, encode, tableRow]
theorem wireSample (s : Word) : Statement (.wireSample s) := by simp [Statement, tableNumber, encode, tableRow, wordBytes]

end Sys2Proof.Laws.EncodesItsTableRow
end

