-- ==== Sys2Proof/Laws/Threshold.lean ====
section
/-! SUPPORT. The threshold's quotient in both roundings, and that it always fits the register (41_bit_slicer.md R87 to
R89). -/

namespace Sys2Proof.Machine

/-- Rounding toward zero (R12). -/
theorem tdiv_bounds (a k : Int) (hk : 0 < k) :
    (0 ≤ a → k * Int.tdiv a k ≤ a ∧ a < k * (Int.tdiv a k + 1) ∧ 0 ≤ Int.tdiv a k) ∧ (a ≤ 0 → k * (Int.tdiv a k - 1) < a ∧ a ≤ k * Int.tdiv a k ∧ Int.tdiv a k ≤ 0) := by
  constructor
  · intro h
    rw [Int.tdiv_eq_ediv_of_nonneg h]
    have h1 := Int.mul_ediv_add_emod a k
    have h2 := Int.emod_nonneg a (show k ≠ 0 by omega)
    have h3 := Int.emod_lt_of_pos a hk
    have h4 := Int.ediv_nonneg h (Int.le_of_lt hk)
    refine ⟨by omega, by rw [Int.mul_add]; omega, h4⟩
  · intro h
    have e : Int.tdiv a k = -((-a) / k) := by
      rw [← Int.tdiv_eq_ediv_of_nonneg (by omega), Int.neg_tdiv, Int.neg_neg]
    rw [e]
    have h1 := Int.mul_ediv_add_emod (-a) k
    have h2 := Int.emod_nonneg (-a) (show k ≠ 0 by omega)
    have h3 := Int.emod_lt_of_pos (-a) hk
    have h4 := Int.ediv_nonneg (show 0 ≤ -a by omega) (Int.le_of_lt hk)
    refine ⟨by rw [Int.mul_sub, Int.mul_neg]; omega, by rw [Int.mul_neg]; omega, by omega⟩

/-- Rounding down. -/
theorem fdiv_bounds (a k : Int) (hk : 0 < k) :
    k * Int.fdiv a k ≤ a ∧ a < k * (Int.fdiv a k + 1) := by
  rw [Int.fdiv_eq_ediv_of_nonneg _ (by omega)]
  have h1 := Int.mul_ediv_add_emod a k
  have h2 := Int.emod_nonneg a (show k ≠ 0 by omega)
  have h3 := Int.emod_lt_of_pos a hk
  exact ⟨by omega, by rw [Int.mul_add]; omega⟩

/-- The quotient of R87 lies between the sample and the threshold (R89). -/
theorem roundedQuotient_between (m : DivMode) (s t k : Int) (hk : 1 ≤ k) :
    min s t ≤ roundedQuotient m (s + (k-1)*t) k ∧ roundedQuotient m (s + (k-1)*t) k ≤ max s t := by
  cases m with
  | towardZero =>
    simp only [roundedQuotient]
    obtain ⟨h1, h2⟩ := tdiv_bounds (s + (k-1)*t) k (by omega)
    generalize Int.tdiv (s + (k-1)*t) k = q at *
    rcases le_total s t with h | h
    · rw [min_eq_left h, max_eq_right h]
      rcases le_total 0 (s + (k-1)*t) with h0 | h0
      · obtain ⟨h1, h1', _⟩ := h1 h0
        constructor <;> by_contra hc <;> nlinarith
      · obtain ⟨h1, h1', _⟩ := h2 h0
        constructor <;> by_contra hc <;> nlinarith
    · rw [min_eq_right h, max_eq_left h]
      rcases le_total 0 (s + (k-1)*t) with h0 | h0
      · obtain ⟨h1, h1', _⟩ := h1 h0
        constructor <;> by_contra hc <;> nlinarith
      · obtain ⟨h1, h1', _⟩ := h2 h0
        constructor <;> by_contra hc <;> nlinarith
  | floor =>
    simp only [roundedQuotient]
    obtain ⟨h1, h2⟩ := fdiv_bounds (s + (k-1)*t) k (by omega)
    generalize Int.fdiv (s + (k-1)*t) k = q at *
    rcases le_total s t with h | h
    · rw [min_eq_left h, max_eq_right h]
      constructor <;> by_contra hc <;> nlinarith
    · rw [min_eq_right h, max_eq_left h]
      constructor <;> by_contra hc <;> nlinarith

/-- The new threshold is the quotient itself: nothing is cut off (R89). -/
theorem nextThreshold_toInt (c : Config) (v t : Word) (h : 1 ≤ c.n) :
    (nextThreshold c v t).toInt = roundedQuotient c.divMode (thresholdAcc c v t) (averagingWeight c) := by
  unfold nextThreshold
  have := roundedQuotient_between c.divMode v.toInt t.toInt (averagingWeight c) (by simp [averagingWeight, avgWindow]; omega)
  have h1 := BitVec.le_toInt v; have h2 := BitVec.toInt_lt (x := v)
  have h3 := BitVec.le_toInt t; have h4 := BitVec.toInt_lt (x := t)
  change min v.toInt t.toInt ≤ roundedQuotient c.divMode (thresholdAcc c v t) _ ∧ roundedQuotient c.divMode (thresholdAcc c v t) _ ≤ _ at this
  generalize roundedQuotient c.divMode (thresholdAcc c v t) (averagingWeight c) = q at *
  rw [BitVec.toInt_ofInt]
  simp at *
  rw [Int.bmod_def]; simp; omega

end Sys2Proof.Machine
end

