-- ==== Sys2Proof/Tests/Slice0.lean ====
section
/-! SUPPORT. Tests of the model, each with its expected result taken from the spec (95_test_vectors.md unless another
file is named), and witnesses: a concrete state and operands that meet the hypotheses of each obligation. -/

namespace Sys2Proof.Tests

open Sys2Proof Sys2Proof.Machine

set_option Elab.async false

/-! ### Well-formedness -/

/-- 30_encoding.md R62: 255 is no legal `LEN` byte. -/
theorem test_wireLen_255_is_ill_formed : ¬ (Instr.wireLen 0xFF#8).WellFormed := by decide

theorem test_wireLen_254_is_well_formed : (Instr.wireLen 0xFE#8).WellFormed := by decide

/-! ### Decoding: words written out from 30_encoding.md R58, R60, R62, R67 to R69 -/

theorem test_decode_step_kinds :
    decode .sequencer [0b01010110#8] = .ok (.reset, []) ∧
    decode .sequencer [0b00011111#8] = .ok (.idle, []) ∧
    decode .sequencer [0b00100000#8, 0xE8#8, 0x03#8] = .ok (.sample 1000#16, []) := ⟨by rfl, by rfl, by rfl⟩

theorem test_decode_slicer :
    decode .threshold [0b00101011#8, 0x18#8, 0xFC#8] = .ok (.thrUpdate (BitVec.ofInt 16 (-1000)), []) ∧
    decode .decimator [0b00100110#8] = .ok (.decimate, []) ∧
    decode .slicer [0b00110000#8, 0x00#8, 0x80#8] = .ok (.slice 0x8000#16, []) ∧
    decode .slicer [0b00100000#8, 0x00#8, 0x80#8] = .error .nothingFires := ⟨by rfl, by rfl, by rfl, by rfl⟩

theorem test_decode_framer :
    decode .framer [0b00110111#8, 0b00000001#8] = .ok (.syncShift 1#1, []) ∧
    decode .framer [0b00111001#8, 0b00000000#8] = .ok (.byteShift 0#1, []) ∧
    decode .sessionStart [0b00110000#8] = .ok (.sessionInit, []) ∧
    decode .sessionStop [0b00111110#8] = .ok (.sessionEnd, []) ∧
    decode .sessionStop [0b00111010#8] = .error .nothingFires ∧
    decode .framer [0b00111001#8, 0b00000010#8] = .error .notABit :=
  ⟨by rfl, by rfl, by rfl, by rfl, by rfl, by rfl⟩

theorem test_decode_assembler :
    decode .assembler [0b00111100#8, 0x03#8] = .ok (.asmLength 0x03#8, []) ∧
    decode .assembler [0b00111101#8, 0x41#8] = .ok (.asmPayload 0x41#8, []) ∧
    decode .assembler [0b00111110#8, 0x53#8] = .ok (.asmCrcHi 0x53#8, []) ∧
    decode .assembler [0b00111111#8, 0xA7#8] = .ok (.asmCrcLo 0xA7#8, []) ∧
    decode .crcEngine [0b00111101#8, 0x41#8, 0xFF#8, 0xFC#8] = .ok (.crcUpdate 0xFCFF#16 0x41#8, []) ∧
    decode .crcEngine [0b00111110#8, 0x41#8, 0xFF#8, 0xFC#8] = .error .nothingFires :=
  ⟨by rfl, by rfl, by rfl, by rfl, by rfl, by rfl⟩

theorem test_decode_front_end :
    decode .frontEnd [0b00000010#8, 0xE8#8] = .ok (.byteIn 0xE8#8, []) ∧
    decode .frontEnd [0b00000111#8] = .ok (.reset, []) ∧
    decode .frontEnd [0b00000001#8] = .ok (.idle, []) ∧
    decode .sampleFormat [0x18#8, 0xFC#8] = .ok (.wireSample (BitVec.ofInt 16 (-1000)), []) :=
  ⟨by rfl, by rfl, by rfl, by rfl⟩

theorem test_decode_wire :
    decode .syncWindow [0b00101101#8, 0b10101010#8] = .ok (.wireSyncWord, []) ∧
    decode .syncWindow [0b11010010#8, 0b01010101#8] = .ok (.wireSyncWordInv, []) ∧
    decode .syncWindow [0b00101101#8, 0b10101011#8] = .error .notASyncWord ∧
    decode .lenField [0b00000011#8] = .ok (.wireLen 3#8, []) ∧
    decode .lenField [0b11111111#8] = .ok (.wireLenOversize, []) ∧
    decode .payloadField [0b01000001#8] = .ok (.wirePayloadByte 0x41#8, []) ∧
    decode .crcHiField [0b01010011#8] = .ok (.wireCrcHi 0x53#8, []) ∧
    decode .crcLoField [0b10100111#8] = .ok (.wireCrcLo 0xA7#8, []) :=
  ⟨by rfl, by rfl, by rfl, by rfl, by rfl, by rfl, by rfl, by rfl⟩

/-- A table word read, and run as the very next step. -/
theorem test_table_words :
    decodeTableWord 7 0x3D = some (.asmPayload 0#8) ∧ decodeTableWord 7 0x20 = some (.sample 0#16) ∧
    decodeTableWord 3 2 = some (.byteIn 0#8) ∧ decodeTableWord 16 0x2DAA = some .wireSyncWord ∧
    decodeTableWord 8 0xFF = some .wireLenOversize := by decide +kernel

theorem test_withFetchWord_runs_sync_word :
    (nextState? (step (State.reset.withFetchWord 16 0x2DAA))).map (fun t => (t.fstate, t.events)) =
      some (.synced, [.sync 0x2DAA#16]) := by decide +kernel

theorem test_withFetchWord_runs_oversize :
    (nextState? (step (State.reset.withFetchWord 8 0xFF))).map (fun t => (t.endCode, t.events)) =
      some (.rejectedOversize, [.oversize 0xFF#8]) := by decide +kernel

/-! ### One step each. Default seed, `N = 2`, `VERBOSE = 1` -/

/-- The state after `sync` (program P1, step 32), as far as the framer and the assembler go. -/
def afterSync : State := { State.reset with fstate := .synced, syncReg := 0x2DAA#16 }

/-- Program P1 before its payload byte `off`. -/
def beforePayload (off : Byte) (crc : Word) : State :=
  { afterSync with astate := .readPayload, length := 3#8, offset := off, crcAcc := crc }

/-- Program P1 before its checksum's low byte, with the accumulator `crc`. -/
def beforeCrcLo (crc : Word) : State :=
  { afterSync with
    astate := .readCrcLo, length := 3#8, offset := 3#8, crcAcc := crc, rxCrc := 0x5300#16
    buf := [(0, 0x41#8), (1, 0x42#8), (2, 0x43#8)] }

/-- R37, R160: reset in mid-session keeps the buffer. -/
theorem test_reset :
    (nextState? (exec .reset (beforeCrcLo 0xAC58#16))).map
      (fun t => (t.fstate, t.crcAcc, t.decCnt, t.buf)) =
    some (.searching, 0x1D0F#16, 2, [(0, 0x41#8), (1, 0x42#8), (2, 0x43#8)]) := by decide +kernel

theorem test_idle :
    (nextState? (exec .idle { afterSync with events := [.length 3#8] })).map (fun t => (t.fstate, t.events)) =
      some (.synced, []) := by decide +kernel

/-- P1, steps 1 and 32. -/
theorem test_sample_off_boundary :
    (nextState? (exec (.sample (BitVec.ofInt 16 (-1000))) State.reset)).map
      (fun t => (t.threshold, t.decCnt, t.bitTap)) = some (BitVec.ofInt 16 (-62), 1, none) := by decide +kernel

theorem test_sample_completes_sync :
    (nextState? (exec (.sample (BitVec.ofInt 16 (-1000)))
      { State.reset with decCnt := 1, threshold := BitVec.ofInt 16 49, syncReg := 0x16D5#16 })).map
      (fun t => (t.decCnt, t.fstate, t.bitTap, t.events)) =
    some (2, .synced, some 0#1, [.sync 0x2DAA#16]) := by decide +kernel

/-- Section 2.3, `K = 16`: `(−100, −95)` and the floor variant. -/
theorem test_thrUpdate :
    (nextState? (exec (.thrUpdate (BitVec.ofInt 16 (-95)))
      { State.reset with threshold := BitVec.ofInt 16 (-100) })).map (·.threshold.toInt) = some (-99) := by
  decide +kernel

theorem test_thrUpdate_floor :
    (nextState? (exec (.thrUpdate (BitVec.ofInt 16 (-95)))
      { State.resetWith { Config.default with divMode := .floor } with threshold := BitVec.ofInt 16 (-100) })).map
      (·.threshold.toInt) = some (-100) := by decide +kernel

/-- Section 2.4, `N = 3`: 3, then 2; at 1 reload. -/
theorem test_decimate_counts :
    (nextState? (exec .decimate (State.resetWith { Config.default with n := 3 }))).map
      (fun t => (t.decCnt, t.boundary)) = some (2, false) := by decide +kernel

theorem test_decimate_reloads :
    (nextState? (exec .decimate { State.resetWith { Config.default with n := 3 } with decCnt := 1 })).map
      (fun t => (t.decCnt, t.boundary)) = some (3, true) := by decide +kernel

/-- Section 2.5: equality gives 0, and the comparison is signed. -/
theorem test_slice_equal :
    (nextState? (exec (.slice (BitVec.ofInt 16 (-5))) { State.reset with threshold := BitVec.ofInt 16 (-5) })).map
      (·.bitTap) = some (some 0#1) := by decide +kernel

theorem test_slice_signed :
    (nextState? (exec (.slice 5#16) { State.reset with threshold := BitVec.ofInt 16 (-1) })).map
      (·.bitTap) = some (some 1#1) := by decide +kernel

/-- Section 2.6: the last bit of `0x2DAA`, and one wrong bit. -/
theorem test_syncShift_match :
    (nextState? (exec (.syncShift 0#1) { State.reset with syncReg := 0x16D5#16, offset := 3#8 })).map
      (fun t => (t.syncReg, t.fstate, t.offset)) = some (0x2DAA#16, .synced, 0#8) := by decide +kernel

theorem test_syncShift_wrong_bit :
    (nextState? (exec (.syncShift 1#1) { State.reset with syncReg := 0x16D5#16 })).map
      (fun t => (t.syncReg, t.fstate, t.events)) = some (0x2DAB#16, .searching, []) := by decide +kernel

/-- 42_sync_framer.md R102; P2 after step 160: `length` survives. -/
theorem test_sessionInit :
    (nextState? (exec .sessionInit { beforeCrcLo 0xAC58#16 with length := 255#8 })).map
      (fun t => (t.astate, t.offset, t.crcAcc, t.rxCrc, t.length)) =
    some (.awaitLength, 0#8, 0x1D0F#16, 0x0000#16, 255#8) := by decide +kernel

/-- Section 2.7: `(34,4)` then a 0 gives `(68,3)`; `(A0,1)` then a 1 delivers `41`. -/
theorem test_byteShift_counts :
    (nextState? (exec (.byteShift 0#1) { afterSync with byteAcc := 0x34#8, bitCnt := 4#4 })).map
      (fun t => (t.byteAcc, t.bitCnt)) = some (0x68#8, 3#4) := by decide +kernel

theorem test_byteShift_delivers :
    (nextState? (exec (.byteShift 1#1) { beforePayload 0#8 0xFCFF#16 with byteAcc := 0xA0#8, bitCnt := 1#4 })).map
      (fun t => (t.byteAcc, t.bitCnt, t.buf, t.crcAcc)) =
    some (0x41#8, 8#4, [(0, 0x41#8)], 0x8976#16) := by decide +kernel

/-- Section 2.8. -/
theorem test_asmLength :
    (nextState? (exec (.asmLength 3#8) afterSync)).map (fun t => (t.length, t.crcAcc, t.astate, t.events)) =
      some (3#8, 0xFCFF#16, .readPayload, [.length 3#8]) := by decide +kernel

theorem test_asmLength_oversize :
    (nextState? (exec (.asmLength 0xFF#8) afterSync)).map (fun t => (t.crcAcc, t.astate, t.endCode, t.events)) =
      some (0xD26C#16, .awaitLength, .rejectedOversize, [.oversize 255#8]) := by decide +kernel

theorem test_asmPayload :
    (nextState? (exec (.asmPayload 0x41#8) (beforePayload 0#8 0xFCFF#16))).map
      (fun t => (t.buf, t.offset, t.crcAcc, t.astate)) =
    some ([(0, 0x41#8)], 1#8, 0x8976#16, .readPayload) := by decide +kernel

theorem test_asmPayload_last :
    (nextState? (exec (.asmPayload 0x43#8) (beforePayload 2#8 0x1E27#16))).map
      (fun t => (t.offset, t.crcAcc, t.astate)) = some (3#8, 0xAC58#16, .readCrcHi) := by decide +kernel

theorem test_asmCrcHi :
    (nextState? (exec (.asmCrcHi 0x53#8) { afterSync with astate := .readCrcHi })).map
      (fun t => (t.rxCrc, t.astate)) = some (0x5300#16, .readCrcLo) := by decide +kernel

theorem test_asmCrcLo_accepts :
    (nextState? (exec (.asmCrcLo 0xA7#8) (beforeCrcLo 0xAC58#16))).map (fun t => (t.rxCrc, t.endCode, t.events)) =
      some (0xAC58#16, .accepted, [.packet 3#8 [0x41#8, 0x42#8, 0x43#8]]) := by rfl

theorem test_asmCrcLo_rejects :
    (nextState? (exec (.asmCrcLo 0xA7#8) (beforeCrcLo 0xCA3A#16))).map (fun t => (t.rxCrc, t.endCode, t.events)) =
      some (0xAC58#16, .rejectedCrc, [.crcMismatch 0xAC58#16 0xCA3A#16]) := by decide +kernel

/-- Section 2.1. -/
theorem test_crcUpdate :
    (nextState? (exec (.crcUpdate 0xFCFF#16 0x41#8) State.reset)).map (fun t => (t.crcOut, t.crcAcc)) =
      some (some 0x8976#16, 0x1D0F#16) := by decide +kernel

/-- P1, step 128: `bit_cnt` is 8, `sync_reg` and `astate` are held. -/
theorem test_sessionEnd :
    (nextState? (exec .sessionEnd (beforeCrcLo 0xAC58#16))).map (fun t => (t.fstate, t.syncReg, t.astate)) =
      some (.searching, 0x2DAA#16, .readCrcLo) := by decide +kernel

/-- Section 2.2: `y E8` after reset, then `y 03`. -/
theorem test_byteIn_low :
    (nextState? (exec (.byteIn 0xE8#8) State.reset)).map (fun t => (t.loByte, t.haveLo, t.threshold)) =
      some (0xE8#8, true, 0#16) := by decide +kernel

/-- 95 section 2.3, `(0, 1000)` gives 62. -/
theorem test_byteIn_high :
    (nextState? (exec (.byteIn 0x03#8) { State.reset with loByte := 0xE8#8, haveLo := true })).map
      (fun t => (t.loByte, t.haveLo, t.threshold, t.decCnt)) = some (0xE8#8, false, 62#16, 1) := by decide +kernel

/-- Section 2.6. -/
theorem test_wireSyncWord :
    (nextState? (exec .wireSyncWord State.reset)).map (fun t => (t.syncReg, t.fstate, t.bitCnt, t.events)) =
      some (0x2DAA#16, .synced, 8#4, [.sync 0x2DAA#16]) := by decide +kernel

theorem test_wireSyncWordInv :
    (nextState? (exec .wireSyncWordInv State.reset)).map (fun t => (t.syncReg, t.fstate, t.events)) =
      some (0xD255#16, .synced, [.sync 0xD255#16]) := by decide +kernel

/-- P7: a sync word inside a session is data. -/
theorem test_wireSyncWord_in_a_session :
    (nextState? (exec .wireSyncWord { beforePayload 0#8 0xFCFF#16 with syncReg := 0xD255#16 })).map
      (fun t => (t.syncReg, t.buf, t.offset)) =
    some (0xD255#16, [(0, 0x2D#8), (1, 0xAA#8)], 2#8) := by decide +kernel

theorem test_wireLen :
    (nextState? (exec (.wireLen 0xFE#8) afterSync)).map (fun t => (t.length, t.crcAcc, t.astate, t.byteAcc)) =
      some (254#8, 0xC24D#16, .readPayload, 0xFE#8) := by decide +kernel

theorem test_wireLenOversize :
    (nextState? (exec .wireLenOversize afterSync)).map (fun t => (t.fstate, t.length, t.events)) =
      some (.searching, 255#8, [.oversize 255#8]) := by decide +kernel

theorem test_wirePayloadByte :
    (nextState? (exec (.wirePayloadByte 0x43#8) (beforePayload 2#8 0x1E27#16))).map
      (fun t => (t.buf, t.crcAcc, t.astate)) = some ([(2, 0x43#8)], 0xAC58#16, .readCrcHi) := by decide +kernel

theorem test_wireCrcHi :
    (nextState? (exec (.wireCrcHi 0x53#8) { afterSync with astate := .readCrcHi })).map
      (fun t => (t.rxCrc, t.astate)) = some (0x5300#16, .readCrcLo) := by decide +kernel

/-- The uncomplemented checksum is rejected. -/
theorem test_wireCrcLo_uncomplemented :
    (nextState? (exec (.wireCrcLo 0x58#8) { beforeCrcLo 0xAC58#16 with rxCrc := 0xAC00#16 })).map
      (fun t => (t.rxCrc, t.fstate, t.events)) =
    some (0x53A7#16, .searching, [.crcMismatch 0x53A7#16 0xAC58#16]) := by decide +kernel

theorem test_wireSample :
    (nextState? (exec (.wireSample (BitVec.ofInt 16 (-1000))) State.reset)).map
      (fun t => (t.loByte, t.haveLo, t.threshold.toInt)) = some (0x18#8, false, -62) := by decide +kernel

/-! ### The host, the ports -/

/-- S6. -/
theorem test_cfgOk :
    cfgOk 3000 = false ∧ cfgOk 2000 = false ∧ cfgOk 0 = false ∧ cfgOk 1999 = false ∧ cfgOk 5000 = false ∧
    cfgOk 4000 = true ∧ oversampling 48000 = 24 := by decide +kernel

/-- 20_memory.md R43: the read port inside the buffer. -/
theorem test_read_port : pktRdData (beforeCrcLo 0xAC58#16) 1#8 = 0x42#8 := by rfl

/-! ### Witnesses: a state and operands that meet the hypotheses of the obligation named -/

theorem test_next_of_isSome {o : Answer} (h : (nextState? o).isSome = true) : ∃ t, o = .next t := by
  cases o with
  | next t => exact ⟨t, rfl⟩
  | fault f => cases f
  | refused _ => simp [nextState?] at h

/-- The hypothesis `2 ≤ N` alone: `SampleRunsTheOperationMap`, `ResetLoadsTheResetTable`, `IdleChangesNothing`,
`ThresholdIsTheRoundedMean`, `CrcUpdateIsEightShifts`, `CrcHighByteIsHeld`, `NoStepStops`. -/
theorem test_witness_configured : 2 ≤ State.reset.cfg.n := by decide

/-- R69, section 2.6: `SYNC_SHIFT` of bit 0 and `BYTE_SHIFT` of bit 1, on words other than the canonical ones. -/
theorem test_decode_framer_other_bit :
    decode .framer [cwByte 0b0110101#7, bitByte 0#1] = .ok (.syncShift 0#1, []) ∧
    decode .framer [cwByte 0b0111111#7, bitByte 1#1] = .ok (.byteShift 1#1, []) := ⟨by rfl, by rfl⟩

theorem test_witness_DecodeEncodeRoundTrip :
    (Instr.wireLen 0xFE#8).WellFormed ∧ (Instr.crcUpdate 0xFFFF#16 0xFF#8).WellFormed := by decide

/-- A state whose next input is `i`. -/
def given (i : Input) : State := { State.reset with inputs := [i] }

theorem test_witness_StepRunsDecodedInstruction :
    decode (fetchImage (given (sampleLine 1000#16))).1 (fetchImage (given (sampleLine 1000#16))).2 =
      .ok (.sample 1000#16, []) := by rfl

/-- Every clause of `DispatchWordsSelectTheStepKind`; `rst` together with a sample and with a byte. -/
theorem test_witness_DispatchWordsSelectTheStepKind :
    fetch State.reset = .idle ∧ fetch (given ⟨true, .sample 1000#16⟩) = .reset ∧
    fetch (given ⟨true, .byte 0x03#8⟩) = .reset ∧ fetch (given idleLine) = .idle ∧
    fetch (given (sampleLine 1000#16)) = .sample 1000#16 ∧ fetch (given (byteLine 0x03#8)) = .byteIn 0x03#8 := by
  decide +kernel

theorem test_witness_NonBoundarySampleTouchesSlicerOnly : 2 ≤ State.reset.cfg.n ∧ 2 ≤ State.reset.decCnt := by decide

theorem test_witness_ConfigurationCheck : cfgOk 4000 = true := by decide +kernel

theorem test_witness_InvalidConfigurationIsRefused :
    cfgOk 3000 = false ∧ cfgOk 4000 = true ∧ (State.resetWith { Config.default with n := 1 }).cfg.n < 2 := by
  decide +kernel

theorem test_witness_NoInstructionChangesTheConfiguration : ∃ t, exec .wireSyncWord State.reset = .next t :=
  test_next_of_isSome (by decide +kernel)

/-- A state with this threshold. -/
def withThreshold (th : Int) : State := { State.reset with threshold := BitVec.ofInt 16 th }

theorem test_witness_ThresholdStaysBetween :
    ∃ t, exec (.thrUpdate 0x8000#16) (withThreshold 32767) = .next t := test_next_of_isSome (by decide +kernel)

/-- The four clauses of `ThresholdDeadZone`, at the edge of the dead zone: `e = K − 1`, `−(K − 1)`, `−1`, `1`. -/
theorem test_witness_ThresholdDeadZone :
    State.reset.cfg.divMode = .towardZero ∧
    (∃ t, exec (.thrUpdate 15#16) (withThreshold 0) = .next t ∧ t.threshold.toInt = 0) ∧
    (∃ t, exec (.thrUpdate (BitVec.ofInt 16 (-15))) (withThreshold 0) = .next t ∧ t.threshold.toInt = 0) ∧
    (∃ t, exec (.thrUpdate 4#16) (withThreshold 5) = .next t ∧ t.threshold.toInt = 4) ∧
    (∃ t, exec (.thrUpdate (BitVec.ofInt 16 (-4))) (withThreshold (-5)) = .next t ∧ t.threshold.toInt = -4) :=
  ⟨rfl, ⟨_, rfl, by decide +kernel⟩, ⟨_, rfl, by decide +kernel⟩, ⟨_, rfl, by decide +kernel⟩,
    ⟨_, rfl, by decide +kernel⟩⟩

theorem test_witness_DecimateCountsDownAndReloads :
    1 ≤ State.reset.decCnt ∧ State.reset.decCnt ≠ 1 ∧ 1 ≤ { State.reset with decCnt := 1 }.decCnt := by decide

theorem test_witness_SliceComparesSignedAndStrict :
    (withThreshold (-6)).threshold.toInt < (BitVec.ofInt 16 (-5) : Word).toInt ∧
    (BitVec.ofInt 16 (-5) : Word).toInt ≤ (withThreshold (-5)).threshold.toInt ∧
    BitVec.ofInt 16 (-5) = (withThreshold (-5)).threshold := by decide +kernel

/-- Section 2.5: `(−6, −5)` is sliced differently with the old threshold, `(4, 5)` is not. -/
theorem test_witness_OldThresholdSlicesDifferently :
    (∃ t, exec (.thrUpdate (BitVec.ofInt 16 (-5))) (withThreshold (-6)) = .next t ∧ t.threshold.toInt = -5) ∧
    (∃ t, exec (.thrUpdate 5#16) (withThreshold 4) = .next t ∧ t.threshold.toInt = 4) :=
  ⟨⟨_, rfl, by decide +kernel⟩, ⟨_, rfl, by decide +kernel⟩⟩

/-- Amplitudes 1 and 32767, the threshold at both ends of its range. -/
theorem test_witness_TwoLevelSignalIsSlicedExactly :
    ((-(1 : Nat) : Int) ≤ (withThreshold 0).threshold.toInt ∧ (withThreshold 0).threshold.toInt ≤ ((1 : Nat) : Int) - 1 ∧
      ∃ t, exec (.thrUpdate (levelOf 1 1#1)) (withThreshold 0) = .next t) ∧
    ((-(32767 : Nat) : Int) ≤ (withThreshold (-32767)).threshold.toInt ∧
      (withThreshold (-32767)).threshold.toInt ≤ ((32767 : Nat) : Int) - 1 ∧
      ∃ t, exec (.thrUpdate (levelOf 32767 0#1)) (withThreshold (-32767)) = .next t) :=
  ⟨⟨by decide +kernel, by decide +kernel, _, rfl⟩, ⟨by decide +kernel, by decide +kernel, _, rfl⟩⟩

theorem test_witness_EverySampleUpdatesTheThreshold :
    (∃ t, exec (.sample 1000#16) { State.reset with decCnt := 1 } = .next t) ∧
    ∃ u, exec (.thrUpdate 1000#16) { State.reset with decCnt := 1 } = .next u :=
  ⟨test_next_of_isSome (by decide +kernel), _, rfl⟩

theorem test_witness_ByteInPairsLittleEndian :
    State.reset.haveLo = false ∧ { State.reset with haveLo := true }.haveLo = true := by decide

theorem test_witness_BytePairIsItsSample : State.reset.haveLo = false ∧ 2 ≤ State.reset.decCnt := by decide

theorem test_witness_OneWrongByteChangesTheCrc : (0x42#8 : Byte) ≠ 0x40#8 := by decide

theorem test_witness_SyncShiftMatchesExactly :
    ((0x16D5#16 : Word).extractLsb' 0 15 ++ 0#1 : Word) = 0x2DAA#16 ∧
    ((0x692A#16 : Word).extractLsb' 0 15 ++ 1#1 : Word) = 0xD255#16 ∧
    ((0x16D5#16 : Word).extractLsb' 0 15 ++ 1#1 : Word) = 0x2DAB#16 := by decide +kernel

theorem test_witness_SessionInitWritesFourRegisters :
    (nextState? (exec (.syncShift 0#1) { State.reset with syncReg := 0x16D5#16, crcAcc := 0xD26C#16 })).map
      (fun t => (t.fstate, t.crcAcc)) = some (.synced, 0x1D0F#16) ∧
    ∃ t, exec (.byteShift 0#1) afterSync = .next t := ⟨by decide +kernel, _, rfl⟩

theorem test_witness_ByteShiftDeliversEveryEighthBit :
    State.reset.bitCnt ≠ 1#4 ∧ { State.reset with bitCnt := 1#4 }.bitCnt = 1#4 := by decide

theorem test_witness_SessionEndWritesFstateOnly :
    (∃ t, exec (.asmLength 0xFF#8) afterSync = .next t) ∧ (∃ t, exec (.asmPayload 0x41#8) afterSync = .next t) ∧
    (∃ t, exec (.asmCrcHi 0x53#8) afterSync = .next t) ∧ ∃ t, exec (.asmCrcLo 0xA7#8) afterSync = .next t :=
  ⟨test_next_of_isSome (by decide +kernel), test_next_of_isSome (by decide +kernel),
    test_next_of_isSome (by decide +kernel), test_next_of_isSome (by decide +kernel)⟩

/-- Both sync words, from the cleared register and from a stale one. -/
theorem test_witness_SyncPatternAcquires :
    State.reset.fstate = .searching ∧
    (∀ k, k < 16 → 1 ≤ k → isSyncWord (syncAfter State.reset.syncReg ((msbFirst (0x2DAA#16 : Word)).take k)) = false) ∧
    (∀ k, k < 16 → 1 ≤ k → isSyncWord (syncAfter State.reset.syncReg ((msbFirst (0xD255#16 : Word)).take k)) = false) ∧
    (∀ k, k < 16 → 1 ≤ k → isSyncWord (syncAfter 0x2DAA#16 ((msbFirst (0x2DAA#16 : Word)).take k)) = false) := by
  decide +kernel

theorem test_witness_SyncRegisterIsFrozenWhileSynced :
    afterSync.fstate = .synced ∧ (∃ t, exec (.sample 0#16) afterSync = .next t) ∧
    (∃ t, exec (.byteIn 0#8) afterSync = .next t) ∧ ∃ t, exec (.byteShift 0#1) afterSync = .next t :=
  ⟨rfl, test_next_of_isSome (by decide +kernel), ⟨_, rfl⟩, ⟨_, rfl⟩⟩

/-- 13 bits from `0x0000`, 14 from a stale sync word (R109); one bit more can match. -/
theorem test_witness_EarliestMatches :
    State.reset.fstate = .searching ∧ State.reset.syncReg = 0x0000#16 ∧ (List.replicate 13 (1#1 : Bit)).length ≤ 13 ∧
    { State.reset with syncReg := 0xD255#16 }.syncReg = 0xD255#16 ∧ (List.replicate 14 (1#1 : Bit)).length ≤ 14 := by
  decide

theorem test_witness_LengthByteIsAcceptedOrOversize : (0xFE#8 : Byte) ≠ 0xFF#8 := by decide

theorem test_witness_OversizedLengthEndsTheSession :
    { afterSync with bitCnt := 1#4, byteAcc := 0x7F#8 }.astate = .awaitLength ∧
    ({ afterSync with bitCnt := 1#4, byteAcc := 0x7F#8 }.byteAcc.extractLsb' 0 7 ++ 1#1 : Byte) = 0xFF#8 := by
  decide +kernel

/-- The last offset inside the buffer. -/
theorem test_witness_PayloadByteIsStoredAtOffset :
    (beforePayload 253#8 0#16).offset.toNat < 254 ∧
    ∃ t, exec (.asmPayload 0x41#8) (beforePayload 253#8 0#16) = .next t :=
  ⟨by decide, test_next_of_isSome (by decide +kernel)⟩

/-- Both addresses that do not exist; at 255 the counter wraps. -/
theorem test_witness_PayloadOutsideTheBufferStoresNothing :
    254 ≤ (beforePayload 254#8 0#16).offset.toNat ∧ 254 ≤ (beforePayload 255#8 0#16).offset.toNat ∧
    (nextState? (exec (.asmPayload 0x41#8) (beforePayload 255#8 0#16))).map (fun t => (t.buf, t.offset)) =
      some ([], 0#8) := by decide +kernel

/-- Equal, at the longest length and at one no run has; and unequal. -/
theorem test_witness_ChecksumIsComplementedAndCompared :
    (let s := { beforeCrcLo 0xAC58#16 with length := 254#8 }
     (0xFFFF#16 - (s.rxCrc.extractLsb' 8 8 ++ 0xA7#8) : Word) = s.crcAcc) ∧
    (let s := { beforeCrcLo 0xAC58#16 with length := 255#8 }
     (0xFFFF#16 - (s.rxCrc.extractLsb' 8 8 ++ 0xA7#8) : Word) = s.crcAcc) ∧
    (let s := beforeCrcLo 0xCA3A#16
     (0xFFFF#16 - (s.rxCrc.extractLsb' 8 8 ++ 0xA7#8) : Word) ≠ s.crcAcc) := by decide +kernel

theorem test_witness_WireFieldsAreDeliveredWhole :
    (afterSync.fstate = .synced ∧ afterSync.bitCnt = 8#4 ∧ afterSync.astate = .awaitLength) ∧
    (let s := beforePayload 253#8 0#16
     s.fstate = .synced ∧ s.bitCnt = 8#4 ∧ s.astate = .readPayload) ∧
    (let s := { afterSync with astate := .readCrcHi }
     s.fstate = .synced ∧ s.bitCnt = 8#4 ∧ s.astate = .readCrcHi) ∧
    (let s := beforeCrcLo 0xAC58#16
     s.fstate = .synced ∧ s.bitCnt = 8#4 ∧ s.astate = .readCrcLo) := by decide

/-- The state after a sync acquisition, with the shortest and the longest payload. -/
theorem test_witness_FrameRoundTrip :
    SessionStart afterSync ∧ ([] : List Byte).length ≤ 254 ∧ (List.replicate 254 (0x41#8 : Byte)).length ≤ 254 :=
  ⟨⟨rfl, rfl, rfl, rfl, rfl, rfl⟩, by decide, by decide +kernel⟩

/-- Program P3: `0x40` in place of `0x42`. -/
theorem test_witness_OneWrongPayloadByteIsRejected :
    SessionStart afterSync ∧ ([0x41#8] ++ 0x40#8 :: [0x43#8] : List Byte).length ≤ 254 ∧ (0x40#8 : Byte) ≠ 0x42#8 :=
  ⟨⟨rfl, rfl, rfl, rfl, rfl, rfl⟩, by decide, by decide⟩

theorem test_witness_AtMostOneEventPerStep :
    isStepKind (.sample 0#16) = true ∧ ∃ t, exec (.sample 0#16) State.reset = .next t :=
  ⟨rfl, test_next_of_isSome (by decide +kernel)⟩

/-- A session's last sample, and one in its middle. -/
theorem test_witness_SessionEndsExactlyWithAnEndCode :
    (nextState? (exec (.sample 1000#16)
      { beforeCrcLo 0xAC58#16 with decCnt := 1, bitCnt := 1#4, byteAcc := 0x53#8 })).map
      (fun t => (t.fstate, t.endCode)) = some (.searching, .accepted) := by decide +kernel

theorem test_witness_CrcIsNeverReseededMidPacket :
    dispatchWord false true { beforePayload 0#8 0#16 with decCnt := 1, bitCnt := 1#4 } = 0b0111101#7 ∧
    dispatchWord false true { afterSync with decCnt := 1, bitCnt := 1#4 } = 0b0111100#7 ∧
    dispatchWord false true afterSync = 0b0101000#7 ∧ ∃ t, exec (.sample 0#16) afterSync = .next t :=
  ⟨by decide +kernel, by decide +kernel, by decide +kernel, test_next_of_isSome (by decide +kernel)⟩

/-- A state whose latest step emitted `es`, reported `e` and showed `tap`. -/
def showing (es : List Event) (e : EndCode) (tap : Option Bit) : State :=
  { State.reset with events := es, endCode := e, bitTap := tap }

/-- Each event of R144 and none, each `end_code` of R150, both tap values and none, both framer states, and the read
port at its first and last address and past the buffer. -/
theorem test_witness_PortsShowEventAndBuffer :
    ((showing [.packet 1#8 [0x41#8]] .accepted none).events = [.packet 1#8 [0x41#8]] ∧
      (showing [.sync 0xD255#16] .none (some 1#1)).events = [.sync 0xD255#16] ∧
      (showing [.length 254#8] .none (some 0#1)).events = [.length 254#8] ∧
      (showing [.oversize 255#8] .rejectedOversize none).events = [.oversize 255#8] ∧
      (showing [.crcMismatch 0xAC58#16 0xCA3A#16] .rejectedCrc none).events = [.crcMismatch 0xAC58#16 0xCA3A#16] ∧
      (showing [] .none none).events = []) ∧
    ((showing [] .none (some 0#1)).bitTap = some 0#1 ∧ (showing [] .none (some 1#1)).bitTap = some 1#1 ∧
      (showing [] .none none).bitTap = none) ∧
    (afterSync.fstate = .synced ∧ State.reset.fstate = .searching) ∧
    ((0#8 : Byte).toNat ≤ 253 ∧ (253#8 : Byte).toNat ≤ 253 ∧ ¬ (254#8 : Byte).toNat ≤ 253 ∧
      ¬ (255#8 : Byte).toNat ≤ 253) := by decide

/-- 60_exceptions.md R146, the ports of a `CRC_MISMATCH` and of a `PACKET`; 20_memory.md R43 past the buffer. -/
theorem test_ports :
    (let s := showing [.crcMismatch 0xAC58#16 0xCA3A#16] .rejectedCrc (some 1#1)
     (diagCode s, diagA s, diagB s, EndCode.code s.endCode, pktValid s, bitOut s) =
       (4#3, 0xAC58#16, 0xCA3A#16, 3#2, false, 1#1)) ∧
    (let s := showing [.packet 1#8 [0x41#8]] .accepted (some 0#1)
     (pktValid s, pktLen s, diagValid s, EndCode.code s.endCode, synced s) = (true, 1#8, false, 1#2, false)) ∧
    pktRdData State.reset 254#8 = 0x00#8 ∧ pktRdData State.reset 255#8 = 0x00#8 := by decide +kernel

theorem test_witness_OnlyPayloadOperationsStore : ∃ t, exec (.asmCrcLo 0xA7#8) (beforeCrcLo 0xAC58#16) = .next t :=
  ⟨_, rfl⟩

/-- The store, the boundary without a store, and off a boundary. -/
theorem test_witness_SampleFrame :
    (∃ t, exec (.sample 0#16) { beforePayload 0#8 0#16 with decCnt := 1, bitCnt := 1#4 } = .next t) ∧
    (∃ t, exec (.sample 0#16) { State.reset with decCnt := 1 } = .next t) ∧
    ∃ t, exec (.sample 0#16) State.reset = .next t :=
  ⟨test_next_of_isSome (by decide +kernel), test_next_of_isSome (by decide +kernel),
    test_next_of_isSome (by decide +kernel)⟩

theorem test_witness_FramerOperationsFrame :
    (∃ t, exec (.byteShift 1#1) { beforePayload 0#8 0#16 with bitCnt := 1#4 } = .next t) ∧
    ∃ t, exec (.byteShift 1#1) afterSync = .next t := ⟨test_next_of_isSome (by decide +kernel), _, rfl⟩

/-- Also at offset 255, whose next value is 0. -/
theorem test_witness_WirePatternsFrame :
    isWirePattern (.wirePayloadByte 0x41#8) = true ∧
    (∃ t, exec (.wirePayloadByte 0x41#8) (beforePayload 0#8 0#16) = .next t) ∧
    (∃ t, exec .wireSyncWord (beforePayload 0#8 0#16) = .next t) ∧
    (nextState? (exec .wireSyncWord (beforePayload 255#8 0#16))).map (·.buf) = some [(0, 0xAA#8)] :=
  ⟨rfl, test_next_of_isSome (by decide +kernel), test_next_of_isSome (by decide +kernel), by decide +kernel⟩

/-- The invariant holds in reset and in a session: `StepKeepsTheInvariant`,
`StepKindsAndWirePatternsComplete`, `SearchingWithin2056Bits`, `ResetMeetsTheInvariant`. -/
theorem test_witness_invariant_reset : BlockInvariant State.reset := by
  refine ⟨by decide, by decide, by decide, by decide, by decide, by decide, fun _ => rfl, fun h => absurd rfl h,
    fun h => ?_, fun h => ?_, rfl⟩ <;> cases h

theorem test_witness_invariant_in_a_session : BlockInvariant afterSync := by
  refine ⟨by decide, by decide, by decide, by decide, by decide, by decide, fun h => ?_, fun h => absurd rfl h,
    fun _ => ⟨rfl, rfl, rfl⟩, fun _ h => absurd rfl h, rfl⟩
  cases h

/-- R127: a step completes in a state no run reaches, the last byte of such a session at address 255. -/
theorem test_witness_NoStepStops :
    let s := { beforePayload 255#8 0#16 with decCnt := 1, bitCnt := 1#4, inputs := [sampleLine 0#16] }
    2 ≤ s.cfg.n ∧ (nextState? (step s)).map (fun t => (t.buf, t.offset)) = some ([], 0#8) := by decide +kernel

theorem test_witness_StepKeepsTheInvariant : ∃ t, step (given (sampleLine 1000#16)) = .next t :=
  test_next_of_isSome (by decide +kernel)

theorem test_witness_SearchingWithin2056Bits : (List.replicate 2056 (1#1 : Bit)).length = 2056 := List.length_replicate ..

theorem test_witness_BufferStaysCanonical :
    Memory.wf (beforeCrcLo 0#16).buf = true ∧ ∃ t, exec (.asmPayload 0x41#8) (beforeCrcLo 0#16) = .next t :=
  ⟨rfl, test_next_of_isSome (by decide +kernel)⟩

theorem test_witness_BitStimulusDeliversItsBit :
    State.reset.decCnt = State.reset.cfg.n ∧ (-(1000 : Nat) : Int) ≤ State.reset.threshold.toInt ∧
    State.reset.threshold.toInt ≤ ((1000 : Nat) : Int) - 1 := by decide +kernel

/-- The reset state with the samples of P1 to come. -/
theorem test_witness_PacketStimulusEmitsItsPayload :
    let s := { State.reset with inputs := packetStimulus 2 1000 0x1D0F#16 [0x41#8, 0x42#8, 0x43#8] }
    BlockInvariant s ∧ s.fstate = .searching ∧ s.decCnt = s.cfg.n ∧ s.threshold = 0#16 ∧ s.inputs.length = 128 ∧
    NoEarlyMatch s.syncReg 0x2DAA#16 := by
  refine ⟨⟨by decide, by decide, by decide, by decide, by decide, by decide, fun _ => rfl, fun h => absurd rfl h,
    fun h => ?_, fun h => ?_, rfl⟩, rfl, rfl, rfl, by decide +kernel, fun k h1 h2 => ?_⟩
  · cases h
  · cases h
  · exact test_witness_SyncPatternAcquires.2.1 k h2 h1

end Sys2Proof.Tests
end

section
/-! The configuration check and the host's start (R8, R141, R161). -/

namespace Sys2Proof.Machine

theorem cfgOk_iff (rate : Nat) : cfgOk rate = true ↔ rate % 2000 = 0 ∧ 2 ≤ rate / 2000 := by
  simp only [cfgOk, bitRate, Bool.and_eq_true, beq_iff_eq, Nat.ble_eq]

theorem oversampling_eq (rate : Nat) : oversampling rate = rate / 2000 := rfl

theorem hostStart_of_cfgOk {rate : Nat} (h : cfgOk rate = true) (verbose : Bool) (seed : Word) (mode : DivMode) :
    hostStart rate verbose seed mode = .next (State.resetWith ⟨rate / 2000, verbose, seed, mode⟩) := by
  rw [hostStart, if_pos h, oversampling_eq]

theorem hostStart_of_not_cfgOk {rate : Nat} (h : cfgOk rate = false) (verbose : Bool) (seed : Word)
    (mode : DivMode) : hostStart rate verbose seed mode = .refused (.configurationError rate) := by
  simp [hostStart, h]

/-- A rate that fails the check never starts the block. -/
theorem hostStart_ne_next_of_not_cfgOk (rate : Nat) (verbose : Bool) (seed : Word) (mode : DivMode) (s : State)
    (h : cfgOk rate = false) : hostStart rate verbose seed mode ≠ .next s := by
  simp [hostStart_of_not_cfgOk h]

/-- R8's examples of accepted rates, with their `N`. -/
theorem cfgOk_accepted_examples :
    (cfgOk 4000 = true ∧ oversampling 4000 = 2) ∧ (cfgOk 8000 = true ∧ oversampling 8000 = 4) ∧
    (cfgOk 48000 = true ∧ oversampling 48000 = 24) := by decide

/-- R8's examples of rejected rates: 3000 and 2001 are no multiples of 2000, 2000 and 0 give `N < 2`. -/
theorem cfgOk_rejected_examples :
    cfgOk 3000 = false ∧ cfgOk 2000 = false ∧ cfgOk 0 = false ∧ cfgOk 2001 = false := by decide

/-- Settles O12: the predicate is R8's by `cfgOk_iff`, and the host's start refuses a rate that fails it. -/
theorem configurationCheck : Obligations.ConfigurationCheck := by
  obtain ⟨at4000, at8000, at48000⟩ := cfgOk_accepted_examples
  exact ⟨cfgOk_iff, fun rate _ => oversampling_eq rate, hostStart_ne_next_of_not_cfgOk,
    at4000, at8000, at48000, cfgOk_rejected_examples⟩

end Sys2Proof.Machine
end

section
/-! What an instruction does as a function of the state, what it leaves, and which part of the state a sample step
touches (10_state.md R16, R33, R38; 44_pipeline_step.md R127, R130). -/

namespace Sys2Proof.Machine

/-- The state an instruction leaves: its meaning without the configuration check every instruction ends in
(`exec_eq_configured`). -/
def effect : Instr → State → State
  | .reset, s => resetRegisters (beginStep s)
  | .idle, s => beginStep s
  | .sample v, s => sampleStep v (beginStep s)
  | .thrUpdate v, s => thrUpdate v s
  | .decimate, s => decimate s
  | .slice v, s => slice v s
  | .syncShift b, s => syncShift b s
  | .sessionInit, s => sessionInit s
  | .byteShift b, s => byteShift b s
  | .asmLength d, s => asmLength d s
  | .asmPayload d, s => asmPayload d s
  | .asmCrcHi d, s => asmCrcHi d s
  | .asmCrcLo d, s => asmCrcLo d s
  | .crcUpdate crc d, s => crcUpdate crc d s
  | .sessionEnd, s => sessionEnd s
  | .byteIn b, s => byteIn b (beginStep s)
  | .wireSyncWord, s => receiveWord syncWord (beginStep s)
  | .wireSyncWordInv, s => receiveWord syncWordInv (beginStep s)
  | .wireLen l, s => receiveByte l (beginStep s)
  | .wireLenOversize, s => receiveByte 0xFF#8 (beginStep s)
  | .wirePayloadByte p, s => receiveByte p (beginStep s)
  | .wireCrcHi c, s => receiveByte c (beginStep s)
  | .wireCrcLo c, s => receiveByte c (beginStep s)
  | .wireSample v, s => receiveSample v (beginStep s)

/-- Every instruction is its effect behind the one check of R141. -/
theorem exec_eq_configured (i : Instr) (s : State) : exec i s = configured s (effect i s) := by
  cases i <;> rfl

theorem exec_eq_next {i : Instr} {s t : State} : exec i s = .next t ↔ 2 ≤ s.cfg.n ∧ effect i s = t := by
  rw [exec_eq_configured, configured_eq_next]

/-- A step is `RESET`, `IDLE`, `SAMPLE` or `BYTE_IN` (R67, R68). -/
theorem isStepKind_fetch (s : State) : isStepKind (fetch s) = true := by
  unfold fetch decodeFw decodeCw
  repeat' split
  all_goals rfl

/-- What `SAMPLE` does to the framer and the assembler: nothing off a boundary, and one `BIT` on a state that looks the
same to them on one (R130). -/
theorem sampleStep_cases (v : Word) (s : State) :
    (s.decCnt ≠ 1 ∧ FramerSame s (sampleStep v s) ∧ (sampleStep v s).decCnt = s.decCnt - 1) ∨
    (s.decCnt = 1 ∧ ∃ b u, FramerSame s u ∧ u.decCnt = s.cfg.n ∧ sampleStep v s = receiveBit b u) := by
  by_cases h : s.decCnt = 1
  · refine .inr ⟨h, _, _, ?_, ?_, sampleStep_on h v⟩
    · exact ⟨rfl, rfl, rfl, rfl, rfl, rfl, rfl, rfl, rfl, rfl, rfl⟩
    · rfl
  · rw [sampleStep_off h]
    exact .inl ⟨h, ⟨rfl, rfl, rfl, rfl, rfl, rfl, rfl, rfl, rfl, rfl, rfl⟩, rfl⟩

/-- `BYTE_IN` latches a low byte, which neither the framer nor the decimator sees, or samples (R86). -/
theorem byteIn_cases (b : Byte) (s : State) :
    (s.haveLo = false ∧ byteIn b s = { s with loByte := b, haveLo := true }) ∨
    (s.haveLo = true ∧ byteIn b s = sampleStep (sampleOfBytes b s.loByte) { s with haveLo := false }) := by
  cases h : s.haveLo <;> simp [byteIn, h]

theorem endIfEnded_of_ended {s : State} (h : s.ended = true) : endIfEnded s = { s with fstate := .searching } := by
  simp [endIfEnded, sessionEnd, h]

theorem endIfEnded_of_not_ended {s : State} (h : s.ended = false) : endIfEnded s = s := by
  simp [endIfEnded, h]

end Sys2Proof.Machine
end

section
/-! The block's invariant: it holds after reset, and every step keeps it (10_state.md R33, R34; 43_packet_assembler.md
R120, R124; 20_memory.md R40, R42). -/

namespace Sys2Proof.Machine

/-- The invariant speaks of the framer's and the assembler's view and of `dec_cnt` alone. -/
theorem BlockInvariant.congr {s t : State} (h : BlockInvariant s) (f : FramerSame s t) (hpos : 1 ≤ t.decCnt)
    (hle : t.decCnt ≤ t.cfg.n) : BlockInvariant t where
  configured := f.cfg ▸ h.configured
  decCnt_pos := hpos
  decCnt_le := hle
  bitCnt_pos := f.bitCnt ▸ h.bitCnt_pos
  bitCnt_le := f.bitCnt ▸ h.bitCnt_le
  offset_le := f.offset ▸ h.offset_le
  searching_bitCnt := by rw [f.fstate, f.bitCnt]; exact h.searching_bitCnt
  length_le := by rw [f.astate, f.length]; exact h.length_le
  ranges := by
    have hr := h.ranges
    simp only [SessionRanges, f.cfg, f.fstate, f.astate, f.length, f.offset, f.crcAcc, f.rxCrc] at hr ⊢
    exact hr
  coverage := by
    have hc := h.coverage
    simp only [SessionCoverage, payloadPrefix, bufPrefix_congr f.buf, f.cfg, f.fstate, f.astate, f.length, f.offset,
      f.crcAcc, f.buf] at hc ⊢
    exact hc
  buffer := f.buf ▸ h.buffer

/-- With `N ≥ 2` and a canonical buffer the values of R37 meet the invariant (D8 to D11). -/
theorem blockInvariant_resetRegisters {s : State} (hn : 2 ≤ s.cfg.n) (hbuf : Memory.wf s.buf = true) :
    BlockInvariant (resetRegisters s) where
  configured := hn
  decCnt_pos := Nat.le_of_succ_le hn
  decCnt_le := Nat.le_refl s.cfg.n
  bitCnt_pos := (by decide : 1 ≤ (8#4).toNat)
  bitCnt_le := (by decide : (8#4).toNat ≤ 8)
  offset_le := Nat.zero_le _
  searching_bitCnt := fun _ => rfl
  length_le := fun h => absurd rfl h
  ranges := nofun
  coverage := nofun
  buffer := hbuf

/-- `SYNC_SHIFT` starts a session at its beginning, or writes `sync_reg` alone (R100 to R102). -/
theorem blockInvariant_syncShift {s : State} (h : BlockInvariant s) (b : Bit) : BlockInvariant (syncShift b s) := by
  rcases syncShift_cases b s with ⟨_, e⟩ | ⟨_, e⟩ <;> rw [e]
  · exact { h with
      bitCnt_pos := (by decide : 1 ≤ (8#4).toNat)
      bitCnt_le := (by decide : (8#4).toNat ≤ 8)
      offset_le := Nat.zero_le _
      searching_bitCnt := fun _ => rfl
      length_le := fun hne => absurd rfl hne
      ranges := fun _ => ⟨rfl, rfl, rfl⟩
      coverage := fun _ hne => absurd rfl hne }
  · exact { h with }

/-- A legal length byte opens the accumulator's coverage (R114, R120); 255 ends the session (R142). -/
theorem blockInvariant_asmLength {s : State} (h : BlockInvariant s) (hf : s.fstate = .synced)
    (hb : s.bitCnt = 8#4) (ha : s.astate = .awaitLength) (d : Byte) : BlockInvariant (endIfEnded (asmLength d s)) := by
  have hr := h.ranges hf
  simp only [SessionRanges, ha] at hr
  obtain ⟨hoff, hcrc, hrx⟩ := hr
  rcases asmLength_cases d s with ⟨hd, e⟩ | ⟨_, e⟩ <;> rw [e]
  · have hle : d.toNat ≤ maxLen := by simp only [maxLen]; bv_omega
    rw [endIfEnded_of_not_ended rfl]
    refine { h with length_le := fun _ => hle, ranges := fun _ => ?_, coverage := fun _ _ => ⟨?_, ?_⟩ }
    · by_cases h0 : d = 0#8
      · simp only [SessionRanges, if_pos h0]
        exact ⟨hle, hoff.trans h0.symm, hrx⟩
      · have hpos : 0 < d.toNat := by bv_omega
        simp only [SessionRanges, if_neg h0, hoff]
        exact ⟨hpos, hle, hpos, hrx⟩
    · simp [payloadPrefix, crcSeq, hoff, hcrc]
    · simp [hoff]
  · rw [endIfEnded_of_ended rfl]
    exact { h with
      searching_bitCnt := fun _ => hb, length_le := fun hne => absurd ha hne, ranges := nofun, coverage := nofun }

/-- A payload byte is stored at `offset` and taken into the accumulator (R115, R120, R124). -/
theorem blockInvariant_asmPayload {s : State} (h : BlockInvariant s) (hf : s.fstate = .synced)
    (ha : s.astate = .readPayload) (d : Byte) : BlockInvariant (endIfEnded (asmPayload d s)) := by
  have hr := h.ranges hf
  simp only [SessionRanges, ha] at hr
  obtain ⟨_, hlen, hlt, hrx⟩ := hr
  obtain ⟨hcrc, hwritten⟩ := h.coverage hf (by simp [ha])
  have hin : s.offset.toNat < bufCap := Nat.lt_of_lt_of_le hlt hlen
  have hsucc : (s.offset + 1).toNat = s.offset.toNat + 1 := by simp only [maxLen] at hlen; bv_omega
  rw [asmPayload_inside hin, endIfEnded_of_not_ended rfl]
  refine { h with
    offset_le := hsucc ▸ Nat.le_trans hlt hlen
    length_le := fun _ => hlen
    ranges := fun _ => ?_
    coverage := fun _ _ => ⟨?_, ?_⟩
    buffer := Memory.wf_write d hin h.buffer }
  · by_cases heq : s.offset + 1 = s.length
    · simp only [SessionRanges, if_pos heq]
      exact ⟨hlen, heq, hrx⟩
    · have hne : s.offset.toNat + 1 ≠ s.length.toNat := by bv_omega
      simp only [SessionRanges, if_neg heq, ha, hsucc]
      exact ⟨by omega, hlen, by omega, hrx⟩
  · simp only [payloadPrefix, hsucc]
    rw [bufPrefix_write (s := s) (d := d) s.offset.toNat rfl, ← List.cons_append, crcSeq_snoc, ← payloadPrefix, ← hcrc]
  · simp only [hsucc]
    intro k hk
    by_cases hk' : k = s.offset.toNat
    · simp [hk']
    · simp [hk', hwritten k (by omega)]

/-- The checksum's high half leaves a low half of 0 (R116). -/
theorem blockInvariant_asmCrcHi {s : State} (h : BlockInvariant s) (hf : s.fstate = .synced)
    (ha : s.astate = .readCrcHi) (d : Byte) : BlockInvariant (endIfEnded (asmCrcHi d s)) := by
  have hr := h.ranges hf
  simp only [SessionRanges, ha] at hr
  obtain ⟨hlen, hoff, _⟩ := hr
  rw [endIfEnded_of_not_ended rfl]
  exact { h with
    length_le := fun _ => hlen
    ranges := fun _ => ⟨hlen, hoff, BitVec.extractLsb'_append_eq_right⟩
    coverage := fun _ _ => h.coverage hf (by simp [ha]) }

/-- The last byte of a frame ends the session either way (R117 to R119). -/
theorem blockInvariant_asmCrcLo {s : State} (h : BlockInvariant s) (hb : s.bitCnt = 8#4) (d : Byte) :
    BlockInvariant (endIfEnded (asmCrcLo d s)) := by
  rcases asmCrcLo_cases d s with ⟨_, e⟩ | ⟨_, e⟩ <;> rw [e, endIfEnded_of_ended rfl] <;>
    exact { h with searching_bitCnt := fun _ => hb, ranges := nofun, coverage := nofun }

/-- A byte delivered in a session keeps the invariant (R113, R132). -/
theorem blockInvariant_deliverByte {s : State} (h : BlockInvariant s) (hf : s.fstate = .synced)
    (hb : s.bitCnt = 8#4) (d : Byte) : BlockInvariant (endIfEnded (deliverByte d s)) := by
  rcases deliverByte_cases d s with ⟨ha, e⟩ | ⟨ha, e⟩ | ⟨ha, e⟩ | ⟨_, e⟩ <;> rw [e]
  · exact blockInvariant_asmLength h hf hb ha d
  · exact blockInvariant_asmPayload h hf ha d
  · exact blockInvariant_asmCrcHi h hf ha d
  · exact blockInvariant_asmCrcLo h hb d

/-- `BYTE_SHIFT` in a session counts down, or delivers a byte at a byte boundary (R104). -/
theorem blockInvariant_byteShift {s : State} (h : BlockInvariant s) (hf : s.fstate = .synced) (b : Bit) :
    BlockInvariant (byteShift b s) := by
  by_cases hb : s.bitCnt = 1#4
  · rw [byteShift_last hb]
    refine blockInvariant_deliverByte (s := { s with byteAcc := _, bitCnt := 8#4 }) ?_ hf rfl _
    exact { h with
      bitCnt_pos := (by decide : 1 ≤ (8#4).toNat)
      bitCnt_le := (by decide : (8#4).toNat ≤ 8)
      searching_bitCnt := fun _ => rfl }
  · have hpos := h.bitCnt_pos
    have hle := h.bitCnt_le
    rw [byteShift_mid hb]
    exact { h with
      bitCnt_pos := (by bv_omega : 1 ≤ (s.bitCnt - 1#4).toNat)
      bitCnt_le := (by bv_omega : (s.bitCnt - 1#4).toNat ≤ 8)
      searching_bitCnt := fun hs => by simp [hf] at hs }

/-- `BIT` keeps the invariant in both framer states (R131). -/
theorem blockInvariant_receiveBit {s : State} (h : BlockInvariant s) (b : Bit) : BlockInvariant (receiveBit b s) := by
  cases hf : s.fstate with
  | searching => rw [receiveBit_searching hf]; exact blockInvariant_syncShift h b
  | synced => rw [receiveBit_synced hf]; exact blockInvariant_byteShift h hf b

/-- `SAMPLE` keeps the invariant: `dec_cnt` counts down or reloads, and at a boundary the framer takes a bit (R130). -/
theorem blockInvariant_sampleStep {s : State} (h : BlockInvariant s) (v : Word) : BlockInvariant (sampleStep v s) := by
  have hpos := h.decCnt_pos
  have hle := h.decCnt_le
  rcases sampleStep_cases v s with ⟨hoff, f, hdec⟩ | ⟨_, b, u, f, hdec, e⟩
  · exact h.congr f (by omega) (by rw [f.cfg]; omega)
  · rw [e]
    refine blockInvariant_receiveBit (h.congr f ?_ ?_) b
    · rw [hdec]; exact Nat.le_of_succ_le h.configured
    · rw [hdec, f.cfg]

/-- `BYTE_IN` latches outside the invariant's view, or samples (R86). -/
theorem blockInvariant_byteIn {s : State} (h : BlockInvariant s) (b : Byte) : BlockInvariant (byteIn b s) := by
  rcases byteIn_cases b s with ⟨_, e⟩ | ⟨_, e⟩ <;> rw [e]
  · exact { h with }
  · exact blockInvariant_sampleStep (s := { s with haveLo := false }) { h with } _

/-- The four kinds of a step keep the invariant (R127 to R130, R134). -/
theorem blockInvariant_effect {s : State} (h : BlockInvariant s) {i : Instr} (hi : isStepKind i = true) :
    BlockInvariant (effect i s) := by
  have hbegin : BlockInvariant (beginStep s) := { h with }
  cases i with
  | reset => exact blockInvariant_resetRegisters h.configured h.buffer
  | idle => exact hbegin
  | sample v => exact blockInvariant_sampleStep hbegin v
  | byteIn b => exact blockInvariant_byteIn hbegin b
  | _ => cases hi

/-- Settles O54: taking the input is outside the invariant's view, and whatever kind the step is, it keeps the
invariant. -/
theorem stepKeepsTheInvariant : Obligations.StepKeepsTheInvariant := by
  intro s t h hstep
  obtain ⟨_, rfl⟩ := exec_eq_next.1 hstep
  exact blockInvariant_effect (s := consumeInput s) { h with } (isStepKind_fetch s)

/-- Settles O53: resetting the reset state again changes nothing, so it holds R37's values. -/
theorem resetMeetsTheInvariant : Obligations.ResetMeetsTheInvariant := by
  have hreset : ∀ c : Config, 2 ≤ c.n → BlockInvariant (State.resetWith c) := fun c hc =>
    blockInvariant_resetRegisters (s := State.resetWith c) hc rfl
  exact ⟨hreset, hreset Config.default (by decide)⟩

end Sys2Proof.Machine
end

section
/-! Frames: what the instructions leave of the configuration, the slicer, the front end and the buffer, and what a sample
step does to the framer's and the assembler's registers (10_state.md R16, R33, R38; 20_memory.md R42). -/

namespace Sys2Proof.Machine

/-! ### The framer's and the assembler's operations leave the slicer and the front end -/

theorem syncShift_slicerSame (b : Bit) (s : State) : SlicerSame s (syncShift b s) := by
  rcases syncShift_cases b s with ⟨_, e⟩ | ⟨_, e⟩ <;> rw [e] <;> exact ⟨rfl, rfl, rfl, rfl, rfl, rfl, rfl, rfl⟩

theorem sessionInit_slicerSame (s : State) : SlicerSame s (sessionInit s) :=
  ⟨rfl, rfl, rfl, rfl, rfl, rfl, rfl, rfl⟩

theorem sessionEnd_slicerSame (s : State) : SlicerSame s (sessionEnd s) :=
  ⟨rfl, rfl, rfl, rfl, rfl, rfl, rfl, rfl⟩

theorem asmLength_slicerSame (d : Byte) (s : State) : SlicerSame s (asmLength d s) := by
  rcases asmLength_cases d s with ⟨_, e⟩ | ⟨_, e⟩ <;> rw [e] <;> exact ⟨rfl, rfl, rfl, rfl, rfl, rfl, rfl, rfl⟩

theorem asmPayload_slicerSame (d : Byte) (s : State) : SlicerSame s (asmPayload d s) := by
  rw [asmPayload_eq]; exact ⟨rfl, rfl, rfl, rfl, rfl, rfl, rfl, rfl⟩

theorem asmCrcHi_slicerSame (d : Byte) (s : State) : SlicerSame s (asmCrcHi d s) :=
  ⟨rfl, rfl, rfl, rfl, rfl, rfl, rfl, rfl⟩

theorem asmCrcLo_slicerSame (d : Byte) (s : State) : SlicerSame s (asmCrcLo d s) := by
  rcases asmCrcLo_cases d s with ⟨_, e⟩ | ⟨_, e⟩ <;> rw [e] <;> exact ⟨rfl, rfl, rfl, rfl, rfl, rfl, rfl, rfl⟩

theorem crcUpdate_slicerSame (crc : Word) (d : Byte) (s : State) : SlicerSame s (crcUpdate crc d s) :=
  ⟨rfl, rfl, rfl, rfl, rfl, rfl, rfl, rfl⟩

/-! ### The configuration -/

theorem sampleStep_cfg (v : Word) (s : State) : (sampleStep v s).cfg = s.cfg := (sampleStep_frame v s).1

theorem byteIn_cfg (b : Byte) (s : State) : (byteIn b s).cfg = s.cfg := by
  rcases byteIn_cases b s with ⟨_, e⟩ | ⟨_, e⟩ <;> rw [e]
  exact sampleStep_cfg _ _

theorem effect_cfg (i : Instr) (s : State) : (effect i s).cfg = s.cfg := by
  cases i with
  | reset | idle | thrUpdate | slice => rfl
  | decimate => exact decimate_cfg s
  | sample v => exact sampleStep_cfg v _
  | syncShift b => exact (syncShift_slicerSame b s).cfg
  | sessionInit => exact (sessionInit_slicerSame s).cfg
  | byteShift b => exact (byteShift_frame b s).1.cfg
  | asmLength d => exact (asmLength_slicerSame d s).cfg
  | asmPayload d => exact (asmPayload_slicerSame d s).cfg
  | asmCrcHi d => exact (asmCrcHi_slicerSame d s).cfg
  | asmCrcLo d => exact (asmCrcLo_slicerSame d s).cfg
  | crcUpdate crc d => exact (crcUpdate_slicerSame crc d s).cfg
  | sessionEnd => exact (sessionEnd_slicerSame s).cfg
  | byteIn b => exact byteIn_cfg b _
  | wireSyncWord | wireSyncWordInv | wireLen | wireLenOversize | wirePayloadByte | wireCrcHi | wireCrcLo =>
    exact (receiveBits_frame _ (beginStep s)).cfg
  | wireSample v => exact (byteIn_cfg _ _).trans (byteIn_cfg _ _)

/-- Settles O14: the effect of each instruction leaves the configuration. -/
theorem noInstructionChangesTheConfiguration : Obligations.NoInstructionChangesTheConfiguration := by
  intro i s t hnext
  obtain ⟨_, rfl⟩ := exec_eq_next.1 hnext
  exact effect_cfg i s

/-- Settles O22: `SAMPLE` and `THR_UPDATE` both leave `nextThreshold` of the old one. -/
theorem everySampleUpdatesTheThreshold : Obligations.EverySampleUpdatesTheThreshold := by
  intro s t u v hsample hthr
  obtain ⟨_, rfl⟩ := exec_eq_next.1 hsample
  obtain ⟨_, rfl⟩ := exec_eq_next.1 hthr
  obtain ⟨_, _, _, _, hthreshold⟩ := sampleStep_frame v (beginStep s)
  exact hthreshold

/-! ### The byte completed in a session -/

theorem controlBits_eq_iff : ∀ (p q r : Bool) (c d : BitVec 2),
    (BitVec.ofBool false ++ BitVec.ofBool true ++ BitVec.ofBool p ++ BitVec.ofBool q ++ BitVec.ofBool r ++ c) =
        0b01111#5 ++ d ↔
      p = true ∧ q = true ∧ r = true ∧ c = d := by
  decide

theorem AState.code_injective : ∀ {a b : AState}, a.code = b.code → a = b := by
  intro a b h
  cases a <;> cases b <;> simp [AState.code] at h ⊢

/-- The dispatch words `01111xx`: the sample completes a byte of a session, the assembler being in the sub-state `xx`
(R66). -/
theorem dispatchWord_eq_iff (s : State) (a : AState) :
    dispatchWord false true s = 0b01111#5 ++ a.code ↔
      s.decCnt = 1 ∧ s.fstate = .synced ∧ s.bitCnt = 1#4 ∧ s.astate = a := by
  refine (controlBits_eq_iff _ _ _ _ _).trans ?_
  simp only [beq_iff_eq, and_congr_right_iff]
  exact fun _ _ _ => ⟨AState.code_injective, congrArg _⟩

theorem dispatchWord_eq_length_iff (s : State) :
    dispatchWord false true s = 0b0111100#7 ↔
      s.decCnt = 1 ∧ s.fstate = .synced ∧ s.bitCnt = 1#4 ∧ s.astate = .awaitLength :=
  dispatchWord_eq_iff s .awaitLength

theorem dispatchWord_eq_payload_iff (s : State) :
    dispatchWord false true s = 0b0111101#7 ↔
      s.decCnt = 1 ∧ s.fstate = .synced ∧ s.bitCnt = 1#4 ∧ s.astate = .readPayload :=
  dispatchWord_eq_iff s .readPayload

/-! ### The accumulator -/

/-- `BYTE` takes a length or payload byte into the accumulator, and no other (R114 to R117). -/
theorem deliverByte_crcAcc (d : Byte) (s : State) :
    (deliverByte d s).crcAcc =
      if s.astate = .awaitLength ∨ s.astate = .readPayload then crcByte s.crcAcc d else s.crcAcc := by
  rcases deliverByte_cases d s with ⟨ha, e⟩ | ⟨ha, e⟩ | ⟨ha, e⟩ | ⟨ha, e⟩ <;> rw [e, ha]
  · rcases asmLength_cases d s with ⟨_, e⟩ | ⟨_, e⟩ <;> rw [e] <;> rfl
  · rw [asmPayload_eq]; rfl
  · rfl
  · rcases asmCrcLo_cases d s with ⟨_, e⟩ | ⟨_, e⟩ <;> rw [e] <;> rfl

theorem byteShift_byteAcc (b : Bit) (s : State) : (byteShift b s).byteAcc = shiftIntoByte s.byteAcc b := by
  by_cases h : s.bitCnt = 1#4
  · obtain ⟨_, _, hacc, _⟩ := deliverByte_frame (shiftIntoByte s.byteAcc b)
      { s with byteAcc := shiftIntoByte s.byteAcc b, bitCnt := 8#4 }
    rw [byteShift_last h, endIfEnded_byteAcc, hacc]
  · rw [byteShift_mid h]

theorem byteShift_crcAcc (b : Bit) (s : State) :
    (byteShift b s).crcAcc =
      if s.bitCnt = 1#4 ∧ (s.astate = .awaitLength ∨ s.astate = .readPayload) then
        crcByte s.crcAcc (byteShift b s).byteAcc
      else s.crcAcc := by
  rw [byteShift_byteAcc]
  by_cases h : s.bitCnt = 1#4
  · rw [byteShift_last h, endIfEnded_crcAcc, deliverByte_crcAcc]
    simp [h]
  · rw [byteShift_mid h]
    simp [h]

/-- In a session a sample step takes the byte it completes into the accumulator, on the words of `ASM_LENGTH` and
`ASM_PAYLOAD` only. -/
theorem sampleStep_crcAcc_of_synced {s : State} (hf : s.fstate = .synced) (v : Word) :
    (sampleStep v s).crcAcc =
      if dispatchWord false true s = 0b0111100#7 ∨ dispatchWord false true s = 0b0111101#7 then
        crcByte s.crcAcc (sampleStep v s).byteAcc
      else s.crcAcc := by
  simp only [dispatchWord_eq_length_iff, dispatchWord_eq_payload_iff]
  rcases sampleStep_cases v s with ⟨hoff, f, _⟩ | ⟨hon, b, u, f, _, e⟩
  · simp [hoff, f.crcAcc]
  · rw [e, receiveBit_synced (f.fstate.trans hf), byteShift_crcAcc, f.bitCnt, f.astate, f.crcAcc]
    simp [hon, hf, and_or_left]

/-- Settles O46: the accumulator's one equation, on the two words and off them. -/
theorem crcIsNeverReseededMidPacket : Obligations.CrcIsNeverReseededMidPacket := by
  intro s t v hf hnext
  obtain ⟨_, rfl⟩ := exec_eq_next.1 hnext
  have hcrc := sampleStep_crcAcc_of_synced (s := beginStep s) hf v
  exact ⟨fun hword => hcrc.trans (if_pos hword), fun hlength hpayload =>
    hcrc.trans (if_neg (not_or.2 ⟨hlength, hpayload⟩))⟩

/-! ### The buffer and `offset` -/

/-- `BYTE_SHIFT` stores at `offset` at most (R42). -/
theorem bufRead_byteShift_other (b : Bit) (s : State) {a : Nat} (ha : a ≠ s.offset.toNat) :
    bufRead (byteShift b s) a = bufRead s a := by
  have hbuf := byteShift_buf b s
  split at hbuf
  · rw [bufRead_congr hbuf, bufRead_bufWrite_other _ s ha]
  · exact bufRead_congr hbuf a

/-- `BIT` stores at `offset` at most. -/
theorem bufRead_receiveBit_other (b : Bit) (s : State) {a : Nat} (ha : a ≠ s.offset.toNat) :
    bufRead (receiveBit b s) a = bufRead s a := by
  cases hf : s.fstate with
  | searching => rw [receiveBit_searching hf]; exact bufRead_congr (syncShift_buf b s) a
  | synced => rw [receiveBit_synced hf]; exact bufRead_byteShift_other b s ha

/-- A sample step stores at `offset` at most. -/
theorem bufRead_sampleStep_other (v : Word) (s : State) {a : Nat} (ha : a ≠ s.offset.toNat) :
    bufRead (sampleStep v s) a = bufRead s a := by
  rcases sampleStep_cases v s with ⟨_, f, _⟩ | ⟨_, b, u, f, _, e⟩
  · exact bufRead_congr f.buf a
  · rw [e, bufRead_receiveBit_other b u (by rwa [f.offset]), bufRead_congr f.buf]

/-- `BYTE` moves `offset` in `READ_PAYLOAD` only (R115). -/
theorem deliverByte_offset (d : Byte) (s : State) :
    (deliverByte d s).offset = if s.astate = .readPayload then s.offset + 1 else s.offset := by
  rcases deliverByte_cases d s with ⟨ha, e⟩ | ⟨ha, e⟩ | ⟨ha, e⟩ | ⟨ha, e⟩ <;> rw [e, ha]
  · rcases asmLength_cases d s with ⟨_, e⟩ | ⟨_, e⟩ <;> rw [e] <;> rfl
  · rw [asmPayload_eq]; rfl
  · rfl
  · rcases asmCrcLo_cases d s with ⟨_, e⟩ | ⟨_, e⟩ <;> rw [e] <;> rfl

theorem byteShift_offset (b : Bit) (s : State) :
    (byteShift b s).offset = if s.bitCnt = 1#4 ∧ s.astate = .readPayload then s.offset + 1 else s.offset := by
  by_cases h : s.bitCnt = 1#4
  · rw [byteShift_last h, endIfEnded_offset, deliverByte_offset]
    simp [h]
  · rw [byteShift_mid h]
    simp [h]

/-- `SYNC_SHIFT` writes `offset` only where it starts a session (R100, R102). -/
theorem syncShift_offset {b : Bit} {s : State} (h : (syncShift b s).fstate = .searching) :
    (syncShift b s).offset = s.offset := by
  rcases syncShift_cases b s with ⟨_, e⟩ | ⟨_, e⟩ <;> rw [e] at h ⊢
  cases h

/-- A bit that completes no payload byte leaves the buffer, and `offset` unless it starts a session. -/
theorem receiveBit_of_no_payload_byte {s : State}
    (h : ¬ (s.fstate = .synced ∧ s.bitCnt = 1#4 ∧ s.astate = .readPayload)) (b : Bit) :
    (receiveBit b s).buf = s.buf ∧ ((receiveBit b s).fstate = s.fstate → (receiveBit b s).offset = s.offset) := by
  cases hf : s.fstate with
  | searching =>
    rw [receiveBit_searching hf]
    exact ⟨syncShift_buf b s, syncShift_offset⟩
  | synced =>
    have hbyte : ¬ (s.bitCnt = 1#4 ∧ s.astate = .readPayload) := fun hb => h ⟨hf, hb⟩
    rw [receiveBit_synced hf, byteShift_buf, byteShift_offset, if_neg hbyte, if_neg hbyte]
    exact ⟨rfl, fun _ => rfl⟩

/-- Off the word `0111101` a sample step leaves the buffer, and `offset` unless it starts or ends a session. -/
theorem sampleStep_of_no_payload_byte {s : State} (h : dispatchWord false true s ≠ 0b0111101#7) (v : Word) :
    (sampleStep v s).buf = s.buf ∧ ((sampleStep v s).fstate = s.fstate → (sampleStep v s).offset = s.offset) := by
  rw [Ne, dispatchWord_eq_payload_iff] at h
  rcases sampleStep_cases v s with ⟨_, f, _⟩ | ⟨hon, b, u, f, _, e⟩
  · exact ⟨f.buf, fun _ => f.offset⟩
  · have hu := receiveBit_of_no_payload_byte (s := u)
      (by rw [f.fstate, f.bitCnt, f.astate]; exact fun hb => h ⟨hon, hb⟩) b
    rwa [← e, f.buf, f.fstate, f.offset] at hu

/-- A searching sample step touches neither `byte_acc` nor `length`: no byte is received. -/
theorem sampleStep_of_searching {s : State} (hf : s.fstate = .searching) (v : Word) :
    (sampleStep v s).byteAcc = s.byteAcc ∧ (sampleStep v s).length = s.length := by
  rcases sampleStep_cases v s with ⟨_, f, _⟩ | ⟨_, b, u, f, _, e⟩
  · exact ⟨f.byteAcc, f.length⟩
  · rw [e, receiveBit_searching (f.fstate.trans hf), ← f.byteAcc, ← f.length]
    rcases syncShift_cases b u with ⟨_, e⟩ | ⟨_, e⟩ <;> rw [e] <;> exact ⟨rfl, rfl⟩

theorem sampleStep_framerSame {s : State} (h : s.decCnt ≠ 1) (v : Word) : FramerSame s (sampleStep v s) := by
  rcases sampleStep_cases v s with ⟨_, f, _⟩ | ⟨hon, _⟩
  · exact f
  · exact absurd hon h

/-- Settles O50: the slicer's frame, the store at `offset` on one word only, and the view off a boundary. -/
theorem sampleFrame : Obligations.SampleFrame := by
  intro s t v hnext
  obtain ⟨_, rfl⟩ := exec_eq_next.1 hnext
  obtain ⟨hcfg, hlo, hhave, hinputs, _⟩ := sampleStep_frame v (beginStep s)
  refine ⟨⟨hcfg, hlo, hhave, hinputs⟩, fun _ a ha => bufRead_sampleStep_other v (beginStep s) ha, fun hword => ?_,
    fun hf => sampleStep_of_searching (s := beginStep s) hf v, fun hoff => ?_⟩
  · obtain ⟨hbuf, hoffset⟩ := sampleStep_of_no_payload_byte (s := beginStep s) hword v
    exact ⟨bufRead_congr hbuf, hoffset⟩
  · have f := sampleStep_framerSame (s := beginStep s) hoff v
    exact ⟨f.fstate, f.byteAcc, f.bitCnt, f.astate, f.length, f.offset, f.crcAcc, f.rxCrc, f.syncReg, f.buf⟩

/-- Settles O51: each of the nine operations leaves the slicer, and `BYTE_SHIFT` stores at `offset` or nowhere. -/
theorem framerOperationsFrame : Obligations.FramerOperationsFrame := by
  intro i s t hnext hop
  obtain ⟨_, rfl⟩ := exec_eq_next.1 hnext
  have hframe : SlicerSame s (effect i s) := by
    cases i with
    | syncShift b => exact syncShift_slicerSame b s
    | sessionInit => exact sessionInit_slicerSame s
    | byteShift b => exact (byteShift_frame b s).1
    | sessionEnd => exact sessionEnd_slicerSame s
    | asmLength d => exact asmLength_slicerSame d s
    | asmPayload d => exact asmPayload_slicerSame d s
    | asmCrcHi d => exact asmCrcHi_slicerSame d s
    | asmCrcLo d => exact asmCrcLo_slicerSame d s
    | crcUpdate crc d => exact crcUpdate_slicerSame crc d s
    | _ => exact hop.elim
  refine ⟨⟨hframe.cfg, hframe.loByte, hframe.haveLo, hframe.inputs, hframe.threshold, hframe.decCnt, hframe.bitTap,
    hframe.boundary⟩, ?_⟩
  rintro b rfl
  refine ⟨(byteShift_frame b s).2, fun _ a ha => bufRead_byteShift_other b s ha, fun hmid => ?_⟩
  exact bufRead_congr ((byteShift_buf b s).trans (if_neg hmid))

/-! ### The reset table -/

/-- Settles O10: `resetWith` is R37's table written out, and an empty buffer reads the free value everywhere (U5). -/
theorem resetStateHoldsTheTable : Obligations.ResetStateHoldsTheTable := by
  have hunwritten : ∀ (c : Config) (a : Nat), bufRead (State.resetWith c) a = Config.unwrittenByte a := fun _ _ => rfl
  exact ⟨fun c => ⟨rfl, rfl, rfl, rfl, rfl, rfl, rfl, rfl, rfl, rfl, rfl, rfl, rfl, rfl, hunwritten c⟩, rfl⟩

end Sys2Proof.Machine
end

section
/-! The payload buffer: which instructions store nothing, where the bits of a wire pattern can store, and its canonical
form (20_memory.md R40, R42; 30_encoding.md R61; 10_state.md R38). -/

namespace Sys2Proof.Machine

/-! ### The operations that store nothing -/

/-- The operations that deliver no payload byte, and so store nothing (R42). -/
def storesNothing : Instr → Bool
  | .reset | .idle | .thrUpdate _ | .decimate | .slice _ | .syncShift _ | .sessionInit | .asmLength _ | .asmCrcHi _
  | .asmCrcLo _ | .crcUpdate _ _ | .sessionEnd => true
  | .asmPayload _ | .byteShift _ | .sample _ | .byteIn _ | .wireSyncWord | .wireSyncWordInv | .wireLen _
  | .wireLenOversize | .wirePayloadByte _ | .wireCrcHi _ | .wireCrcLo _ | .wireSample _ => false

theorem effect_buf_of_storesNothing {i : Instr} (hi : storesNothing i = true) (s : State) :
    (effect i s).buf = s.buf := by
  cases i with
  | reset | idle | thrUpdate | slice | sessionInit | asmCrcHi | crcUpdate | sessionEnd => rfl
  | decimate => exact decimate_buf s
  | syncShift b => exact syncShift_buf b s
  | asmLength d => exact asmLength_buf d s
  | asmCrcLo d => exact asmCrcLo_buf d s
  | _ => cases hi

/-- Settles O49: the twelve operations leave the buffer itself, so every address reads as before. -/
theorem onlyPayloadOperationsStore : Obligations.OnlyPayloadOperationsStore := by
  intro i s t hnext hop
  obtain ⟨_, rfl⟩ := exec_eq_next.1 hnext
  have hi : storesNothing i = true := by
    cases i with
    | asmPayload | byteShift | sample | byteIn | wireSyncWord | wireSyncWordInv | wireLen | wireLenOversize
    | wirePayloadByte | wireCrcHi | wireCrcLo | wireSample => exact hop.elim
    | _ => rfl
  exact bufRead_congr (effect_buf_of_storesNothing hi s)

/-! ### The canonical form -/

/-- `ASM_PAYLOAD` stores at `offset` (R115). -/
theorem wf_asmPayload (d : Byte) {s : State} (h : Memory.wf s.buf = true) :
    Memory.wf (asmPayload d s).buf = true :=
  bufWrite_wf s.offset.toNat d h

theorem wf_byteShift (b : Bit) {s : State} (h : Memory.wf s.buf = true) : Memory.wf (byteShift b s).buf = true := by
  rw [byteShift_buf]
  split
  · exact bufWrite_wf _ _ h
  · exact h

theorem wf_receiveBit (b : Bit) {s : State} (h : Memory.wf s.buf = true) :
    Memory.wf (receiveBit b s).buf = true := by
  cases hf : s.fstate with
  | searching => rwa [receiveBit_searching hf, syncShift_buf]
  | synced => rw [receiveBit_synced hf]; exact wf_byteShift b h

theorem wf_receiveBits (bs : List Bit) {s : State} (h : Memory.wf s.buf = true) :
    Memory.wf (receiveBits bs s).buf = true := by
  induction bs generalizing s with
  | nil => exact h
  | cons b bs ih => exact ih (wf_receiveBit b h)

theorem wf_sampleStep (v : Word) {s : State} (h : Memory.wf s.buf = true) :
    Memory.wf (sampleStep v s).buf = true := by
  rcases sampleStep_cases v s with ⟨_, f, _⟩ | ⟨_, b, u, f, _, e⟩
  · rwa [f.buf]
  · rw [e]
    exact wf_receiveBit b (by rwa [f.buf])

theorem wf_byteIn (b : Byte) {s : State} (h : Memory.wf s.buf = true) : Memory.wf (byteIn b s).buf = true := by
  rcases byteIn_cases b s with ⟨_, e⟩ | ⟨_, e⟩ <;> rw [e]
  · exact h
  · exact wf_sampleStep (s := { s with haveLo := false }) _ h

theorem wf_effect (i : Instr) {s : State} (h : Memory.wf s.buf = true) : Memory.wf (effect i s).buf = true := by
  cases i with
  | asmPayload d => exact wf_asmPayload d h
  | byteShift b => exact wf_byteShift b h
  | sample v => exact wf_sampleStep (s := beginStep s) v h
  | byteIn b => exact wf_byteIn (s := beginStep s) b h
  | wireSyncWord | wireSyncWordInv | wireLen | wireLenOversize | wirePayloadByte | wireCrcHi | wireCrcLo =>
    exact wf_receiveBits (s := beginStep s) _ h
  | wireSample v => exact wf_byteIn _ (wf_byteIn (s := beginStep s) _ h)
  | _ => rwa [effect_buf_of_storesNothing rfl]

/-- Settles O57: an instruction stores through `bufWrite` or not at all. -/
theorem bufferStaysCanonical : Obligations.BufferStaysCanonical := by
  intro i s t hwf hnext
  obtain ⟨_, rfl⟩ := exec_eq_next.1 hnext
  exact wf_effect i hwf

/-! ### Where the bits of a wire pattern store -/

/-- A lower bound on the bits up to the next payload byte's store, that bit included. While `SEARCHING`, a session must
start and its length byte come first; in a session `bit_cnt` bits complete the byte (16 for a `bit_cnt` of 0, R104), and
outside `READ_PAYLOAD` a further byte must follow. -/
def bitsToPayload (s : State) : Nat :=
  match s.fstate with
  | .searching => 17
  | .synced => (s.bitCnt - 1#4).toNat + if s.astate = .readPayload then 1 else 9

theorem bitsToPayload_searching {s : State} (hf : s.fstate = .searching) : bitsToPayload s = 17 := by
  simp [bitsToPayload, hf]

theorem bitsToPayload_synced {s : State} (hf : s.fstate = .synced) :
    bitsToPayload s = (s.bitCnt - 1#4).toNat + if s.astate = .readPayload then 1 else 9 := by
  simp [bitsToPayload, hf]

theorem bitsToPayload_pos (s : State) : 0 < bitsToPayload s := by
  cases hf : s.fstate with
  | searching => simp [bitsToPayload_searching hf]
  | synced => rw [bitsToPayload_synced hf]; split <;> omega

/-- At a byte boundary a whole byte is still to come, whatever it is. -/
theorem eight_le_bitsToPayload {s : State} (hb : s.bitCnt = 8#4) : 8 ≤ bitsToPayload s := by
  cases hf : s.fstate with
  | searching => simp [bitsToPayload_searching hf]
  | synced => rw [bitsToPayload_synced hf, hb]; split <;> decide

theorem byteShift_bitCnt_of_last {s : State} (h : s.bitCnt = 1#4) (b : Bit) : (byteShift b s).bitCnt = 8#4 := by
  obtain ⟨_, _, _, hcnt, _⟩ := deliverByte_frame (shiftIntoByte s.byteAcc b)
    { s with byteAcc := shiftIntoByte s.byteAcc b, bitCnt := 8#4 }
  rw [byteShift_last h, endIfEnded_bitCnt, hcnt]

/-- After `SYNC_SHIFT` a payload byte is 16 bits away at least: a length byte comes first, even where it started a session
(R102). -/
theorem bitsToPayload_syncShift (b : Bit) {s : State} (hf : s.fstate = .searching) :
    16 ≤ bitsToPayload (syncShift b s) := by
  rcases syncShift_cases b s with ⟨_, e⟩ | ⟨_, e⟩ <;> rw [e]
  · simp [bitsToPayload]
  · simp [bitsToPayload, hf]

/-- A bit of a session that stores nothing brings the next payload byte nearer by one at most (R104). -/
theorem bitsToPayload_byteShift {s : State} (hf : s.fstate = .synced) (b : Bit)
    (h : ¬ (s.bitCnt = 1#4 ∧ s.astate = .readPayload)) : bitsToPayload s ≤ bitsToPayload (byteShift b s) + 1 := by
  by_cases hb : s.bitCnt = 1#4
  · have hle := eight_le_bitsToPayload (byteShift_bitCnt_of_last hb b)
    have hs : bitsToPayload s = 9 := by
      rw [bitsToPayload_synced hf, hb, if_neg fun ha => h ⟨hb, ha⟩]
      rfl
    omega
  · have hpred : (s.bitCnt - 1#4).toNat = (s.bitCnt - 1#4 - 1#4).toNat + 1 := by bv_omega
    rw [byteShift_mid hb, bitsToPayload_synced hf, bitsToPayload_synced (by exact hf), hpred]
    simp only
    omega

/-- What one bit does to the buffer: it stores at `offset`, moves it on, and the next store is 8 bits away; or it stores
nothing, and then moves `offset` only where the next store is 16 bits away (R42, R102, R115). -/
theorem receiveBit_store_cases (b : Bit) (s : State) :
    (bitsToPayload s = 1 ∧ (receiveBit b s).offset = s.offset + 1#8 ∧ 8 ≤ bitsToPayload (receiveBit b s)) ∨
    ((receiveBit b s).buf = s.buf ∧ bitsToPayload s ≤ bitsToPayload (receiveBit b s) + 1 ∧
      ((receiveBit b s).offset = s.offset ∨ 16 ≤ bitsToPayload (receiveBit b s))) := by
  cases hf : s.fstate with
  | searching =>
    have hfar := bitsToPayload_syncShift b hf
    rw [receiveBit_searching hf, bitsToPayload_searching hf]
    exact .inr ⟨syncShift_buf b s, by omega, .inr hfar⟩
  | synced =>
    rw [receiveBit_synced hf, byteShift_offset, byteShift_buf]
    by_cases h : s.bitCnt = 1#4 ∧ s.astate = .readPayload
    · obtain ⟨hb, ha⟩ := h
      refine .inl ⟨?_, if_pos ⟨hb, ha⟩, eight_le_bitsToPayload (byteShift_bitCnt_of_last hb b)⟩
      rw [bitsToPayload_synced hf, hb, if_pos ha]
      rfl
    · exact .inr ⟨if_neg h, bitsToPayload_byteShift hf b h, .inl (if_neg h)⟩

/-- Up to 16 bits store at the next `k` values of `offset` at most, where they are too few to reach a store after these.
A session they start moves `offset` to 0, but they end before its first payload byte. -/
theorem bufRead_receiveBits_other {bs : List Bit} {s : State} {a : Nat} (k : Nat) (hlen : bs.length ≤ 16)
    (hk : bs.length < bitsToPayload s + 8 * k) (ha : ∀ j < k, a ≠ (s.offset + BitVec.ofNat 8 j).toNat) :
    bufRead (receiveBits bs s) a = bufRead s a := by
  induction bs generalizing s k with
  | nil => rfl
  | cons b bs ih =>
    rw [List.length_cons] at hlen hk
    rw [receiveBits_cons]
    rcases receiveBit_store_cases b s with ⟨hs, hoffset, hnext⟩ | ⟨hbuf, hnear, hoffset | hfar⟩
    · obtain ⟨m, rfl⟩ : ∃ m, k = m + 1 := ⟨k - 1, by omega⟩
      have hother : a ≠ s.offset.toNat := by simpa using ha 0 m.succ_pos
      refine (ih m (by omega) (by omega) fun j hj => ?_).trans (bufRead_receiveBit_other b s hother)
      rw [hoffset, BitVec.add_assoc, BitVec.add_comm 1#8, ← BitVec.ofNat_add]
      exact ha (j + 1) (by omega)
    · exact (ih k (by omega) (by omega) (by rwa [hoffset])).trans (bufRead_congr hbuf a)
    · exact (ih 0 (by omega) (by omega) (by simp)).trans (bufRead_congr hbuf a)

/-- A pattern of 8 bits stores at `offset` at most. -/
theorem bufRead_receiveByte_other (d : Byte) (s : State) {a : Nat} (ha : a ≠ s.offset.toNat) :
    bufRead (receiveByte d s) a = bufRead s a := by
  have hpos := bitsToPayload_pos s
  have hlen : (msbFirst d).length = 8 := rfl
  refine bufRead_receiveBits_other 1 (by omega) (by omega) fun j hj => ?_
  obtain rfl : j = 0 := by omega
  simpa using ha

/-- A pattern of 16 bits stores at `offset` and its next value at most. -/
theorem bufRead_receiveWord_other (w : Word) (s : State) {a : Nat} (ha : a ≠ s.offset.toNat)
    (ha' : a ≠ (s.offset + 1#8).toNat) : bufRead (receiveWord w s) a = bufRead s a := by
  have hpos := bitsToPayload_pos s
  have hlen : (msbFirst w).length = 16 := rfl
  refine bufRead_receiveBits_other 2 (by omega) (by omega) fun j hj => ?_
  obtain rfl | rfl : j = 0 ∨ j = 1 := by omega
  · simpa using ha
  · exact ha'

/-- What a wire pattern of the bit stream is: the bits of a byte, or of a sync word (R60, R61). -/
theorem effect_wirePattern_cases {i : Instr} (hi : isWirePattern i = true) (hne : ∀ v, i ≠ .wireSample v) (s : State) :
    (∃ d, effect i s = receiveByte d (beginStep s)) ∨
    ((i = .wireSyncWord ∨ i = .wireSyncWordInv) ∧ ∃ w, effect i s = receiveWord w (beginStep s)) := by
  cases i with
  | wireLen | wireLenOversize | wirePayloadByte | wireCrcHi | wireCrcLo => exact .inl ⟨_, rfl⟩
  | wireSyncWord => exact .inr ⟨.inl rfl, _, rfl⟩
  | wireSyncWordInv => exact .inr ⟨.inr rfl, _, rfl⟩
  | wireSample v => exact absurd rfl (hne v)
  | _ => cases hi

/-- Settles O52: bits received leave the slicer, and 8 or 16 of them hold at most one or two stores. -/
theorem wirePatternsFrame : Obligations.WirePatternsFrame := by
  intro i s t hi hne hnext
  obtain ⟨_, rfl⟩ := exec_eq_next.1 hnext
  rcases effect_wirePattern_cases hi hne s with ⟨d, e⟩ | ⟨hsync, w, e⟩ <;> rw [e]
  · have f := receiveBits_frame (msbFirst d) (beginStep s)
    have hother : ∀ a, a ≠ s.offset.toNat → bufRead (receiveByte d (beginStep s)) a = bufRead s a := fun _ =>
      bufRead_receiveByte_other d (beginStep s)
    exact ⟨⟨f.cfg, f.loByte, f.haveLo, f.inputs, f.threshold, f.decCnt⟩, fun a ha _ => hother a ha, fun _ _ => hother⟩
  · have f := receiveBits_frame (msbFirst w) (beginStep s)
    exact ⟨⟨f.cfg, f.loByte, f.haveLo, f.inputs, f.threshold, f.decCnt⟩,
      fun _ ha ha' => bufRead_receiveWord_other w (beginStep s) ha ha',
      fun h h' => (hsync.elim h h').elim⟩

end Sys2Proof.Machine
end

section
/-! The decoder: what each reader takes from the bytes an encoder wrote, on which dispatch words each pattern fires, and
that decoding inverts encoding (30_encoding.md R57 to R69; logs 10 and 11). -/

namespace Sys2Proof

/-! ### The readers on encoded operands -/

@[simp] theorem takeCw_cwByte (cw : BitVec 7) (bs : List Byte) (k : BitVec 7 → List Byte → Decoded) :
    takeCw (cwByte cw :: bs) k = k cw bs := by
  have hbyte : ∀ cw : BitVec 7, (cwByte cw)[7] = false ∧ (cwByte cw).extractLsb' 0 7 = cw := by decide
  obtain ⟨htop, hword⟩ := hbyte cw
  simp [takeCw, htop, hword]

@[simp] theorem takeFw_fwByte (fw : BitVec 3) (bs : List Byte) (k : BitVec 3 → List Byte → Decoded) :
    takeFw ((0#5 ++ fw : Byte) :: bs) k = k fw bs := by
  have hbyte : ∀ fw : BitVec 3, (0#5 ++ fw : Byte).extractLsb' 3 5 = 0#5 ∧ (0#5 ++ fw : Byte).extractLsb' 0 3 = fw := by
    decide
  obtain ⟨htop, hword⟩ := hbyte fw
  simp [takeFw, htop, hword]

@[simp] theorem takeByte_cons (b : Byte) (bs : List Byte) (k : Byte → List Byte → Decoded) :
    takeByte (b :: bs) k = k b bs := rfl

@[simp] theorem takeBit_bitByte (b : Bit) (bs : List Byte) (k : Bit → List Byte → Decoded) :
    takeBit (bitByte b :: bs) k = k b bs := by
  have hbyte : ∀ b : Bit, (bitByte b).extractLsb' 1 7 = 0#7 ∧ (bitByte b).extractLsb' 0 1 = b := by decide
  obtain ⟨htop, hbit⟩ := hbyte b
  simp [takeBit, htop, hbit]

@[simp] theorem takeWord_cons (lo hi : Byte) (bs : List Byte) (k : Word → List Byte → Decoded) :
    takeWord (lo :: hi :: bs) k = k (hi ++ lo) bs := rfl

@[simp] theorem takeWord_wordBytes (w : Word) (bs : List Byte) (k : Word → List Byte → Decoded) :
    takeWord (wordBytes w ++ bs) k = k w bs := by
  simp [wordBytes]

/-- Settles O1: each reader takes back what the encoder wrote, and the word of each row fires its own pattern. -/
theorem decodeEncodeRoundTrip : Obligations.DecodeEncodeRoundTrip := by
  intro i rest hwf
  cases i with
  | reset | idle | decimate | sessionInit | sessionEnd => rfl
  | sample s => exact takeWord_wordBytes s rest fun s rest => .ok (.sample s, rest)
  | thrUpdate s => exact takeWord_wordBytes s rest fun s rest => .ok (.thrUpdate s, rest)
  | slice s => exact takeWord_wordBytes s rest fun s rest => .ok (.slice s, rest)
  | syncShift b => exact takeBit_bitByte b rest fun b rest => .ok (.syncShift b, rest)
  | byteShift b => exact takeBit_bitByte b rest fun b rest => .ok (.byteShift b, rest)
  | asmLength | asmPayload | asmCrcHi | asmCrcLo | byteIn => rfl
  | crcUpdate crc d => exact takeWord_wordBytes crc rest fun crc rest => .ok (.crcUpdate crc d, rest)
  | wireSyncWord | wireSyncWordInv | wireLenOversize | wirePayloadByte | wireCrcHi | wireCrcLo => rfl
  | wireLen l => exact if_neg (by simpa [Instr.WellFormed, Instr.wellFormed] using hwf)
  | wireSample s => exact takeWord_wordBytes s rest fun s rest => .ok (.wireSample s, rest)

/-! ### The patterns of R69, bit by bit -/

theorem patReset_fires : ∀ cw, patReset.fires cw = cw.getLsbD 6 := by decide
theorem patIdle_fires : ∀ cw, patIdle.fires cw = (!cw.getLsbD 6 && !cw.getLsbD 5) := by decide
theorem patThrUpdate_fires : ∀ cw, patThrUpdate.fires cw = (!cw.getLsbD 6 && cw.getLsbD 5) := by decide
theorem patSlice_fires : ∀ cw, patSlice.fires cw = (patThrUpdate.fires cw && cw.getLsbD 4) := by decide
theorem patSyncShift_fires : ∀ cw, patSyncShift.fires cw = (patSlice.fires cw && !cw.getLsbD 3) := by decide
theorem patByteShift_fires : ∀ cw, patByteShift.fires cw = (patSlice.fires cw && cw.getLsbD 3) := by decide
theorem patSessionEnd_fires : ∀ cw, patSessionEnd.fires cw = (patByteShift.fires cw && cw.getLsbD 2) := by decide
theorem patCrcUpdate_fires :
    ∀ cw, patCrcUpdate.fires cw =
      (patSessionEnd.fires cw && (cw.extractLsb' 0 2 == 0b00#2 || cw.extractLsb' 0 2 == 0b01#2)) := by decide

/-- The four patterns of the assembler share the word's first five bits and differ in `as`. -/
theorem patAsm_fires :
    ∀ cw, patAsmLength.fires cw = (patSessionEnd.fires cw && cw.extractLsb' 0 2 == 0b00#2) ∧
      patAsmPayload.fires cw = (patSessionEnd.fires cw && cw.extractLsb' 0 2 == 0b01#2) ∧
      patAsmCrcHi.fires cw = (patSessionEnd.fires cw && cw.extractLsb' 0 2 == 0b10#2) ∧
      patAsmCrcLo.fires cw = (patSessionEnd.fires cw && cw.extractLsb' 0 2 == 0b11#2) := by decide

/-! ### What the units read on a dispatch word -/

/-- A unit of one operation reads it exactly where its pattern fires. -/
theorem decode_single_eq_ok_iff (cw : BitVec 7) (lo hi : Byte) :
    (decode .threshold [cwByte cw, lo, hi] = .ok (.thrUpdate (hi ++ lo), []) ↔ patThrUpdate.fires cw = true) ∧
    (decode .decimator [cwByte cw] = .ok (.decimate, []) ↔ patDecimate.fires cw = true) ∧
    (decode .slicer [cwByte cw, lo, hi] = .ok (.slice (hi ++ lo), []) ↔ patSlice.fires cw = true) ∧
    (decode .sessionStart [cwByte cw] = .ok (.sessionInit, []) ↔ patSessionInit.fires cw = true) ∧
    (decode .crcEngine [cwByte cw, hi, lo, hi] = .ok (.crcUpdate (hi ++ lo) hi, []) ↔
      patCrcUpdate.fires cw = true) ∧
    (decode .sessionStop [cwByte cw] = .ok (.sessionEnd, []) ↔ patSessionEnd.fires cw = true) := by
  simp [decode]

theorem decode_sequencer_eq_ok_iff (cw : BitVec 7) (lo hi : Byte) :
    (decode .sequencer [cwByte cw, lo, hi] = .ok (.reset, [lo, hi]) ↔ cw.getLsbD 6 = true) ∧
    (decode .sequencer [cwByte cw, lo, hi] = .ok (.idle, [lo, hi]) ↔ cw.getLsbD 6 = false ∧ cw.getLsbD 5 = false) ∧
    (decode .sequencer [cwByte cw, lo, hi] = .ok (.sample (hi ++ lo), []) ↔
      cw.getLsbD 6 = false ∧ cw.getLsbD 5 = true) := by
  simp only [decode, takeCw_cwByte, takeWord_cons, decodeCw, patReset_fires, patIdle_fires]
  cases cw.getLsbD 6 <;> cases cw.getLsbD 5 <;> simp

theorem decode_framer_eq_ok_iff (cw : BitVec 7) (b : Bit) :
    (decode .framer [cwByte cw, bitByte b] = .ok (.syncShift b, []) ↔ patSyncShift.fires cw = true) ∧
    (decode .framer [cwByte cw, bitByte b] = .ok (.byteShift b, []) ↔ patByteShift.fires cw = true) := by
  simp only [decode, takeCw_cwByte, takeBit_bitByte, patSyncShift_fires, patByteShift_fires]
  cases patSlice.fires cw <;> cases cw.getLsbD 3 <;> simp

theorem twoBits_cases : ∀ c : BitVec 2, c = 0b00#2 ∨ c = 0b01#2 ∨ c = 0b10#2 ∨ c = 0b11#2 := by decide

/-- On the words of the assembler's four patterns `as` selects the operation (R25, R69). -/
theorem decode_assembler (cw : BitVec 7) (d : Byte) :
    decode .assembler [cwByte cw, d] =
      if patSessionEnd.fires cw then
        .ok (Machine.assemblerOperation (Machine.AState.ofCode (cw.extractLsb' 0 2)) d, [])
      else .error .nothingFires := by
  obtain ⟨hlength, hpayload, hcrcHi, hcrcLo⟩ := patAsm_fires cw
  simp only [decode, takeCw_cwByte, takeByte_cons, hlength, hpayload, hcrcHi, hcrcLo]
  cases patSessionEnd.fires cw
  · rfl
  · rcases twoBits_cases (cw.extractLsb' 0 2) with h | h | h | h <;> rw [h] <;> rfl

/-- The assembler's operation tells the sub-state, so its encoding (R25). -/
theorem assemblerOperation_ofCode_eq_iff (c : BitVec 2) (d : Byte) :
    (Machine.assemblerOperation (Machine.AState.ofCode c) d = .asmLength d ↔ c = 0b00#2) ∧
    (Machine.assemblerOperation (Machine.AState.ofCode c) d = .asmPayload d ↔ c = 0b01#2) ∧
    (Machine.assemblerOperation (Machine.AState.ofCode c) d = .asmCrcHi d ↔ c = 0b10#2) ∧
    (Machine.assemblerOperation (Machine.AState.ofCode c) d = .asmCrcLo d ↔ c = 0b11#2) := by
  rcases twoBits_cases c with rfl | rfl | rfl | rfl <;> simp [Machine.AState.ofCode, Machine.assemblerOperation]

/-- Settles O3: the operand bytes are taken as they stand, so a unit's answer is whether its pattern fires, and the
patterns are those bits. -/
theorem operationsFireByTheirPatterns : Obligations.OperationsFireByTheirPatterns := by
  intro cw lo hi b rst sv decLast synced byteLast sample bit byte as
  have hsample : patThrUpdate.fires cw = true ↔ sample := by simp [patThrUpdate_fires, sample, rst, sv]
  have hbit : patSlice.fires cw = true ↔ bit := by simp [patSlice_fires, hsample, bit, decLast]
  have hsync : patSyncShift.fires cw = true ↔ bit ∧ synced = false := by simp [patSyncShift_fires, hbit, synced]
  have hshift : patByteShift.fires cw = true ↔ bit ∧ synced = true := by simp [patByteShift_fires, hbit, synced]
  have hbyte : patSessionEnd.fires cw = true ↔ byte := by
    simp [patSessionEnd_fires, hshift, byte, byteLast, and_assoc]
  have hcrc : patCrcUpdate.fires cw = true ↔ byte ∧ (as = 0b00#2 ∨ as = 0b01#2) := by
    rw [patCrcUpdate_fires, Bool.and_eq_true, hbyte, Bool.or_eq_true, beq_iff_eq, beq_iff_eq]
  have hasm : ∀ i, decode .assembler [cwByte cw, lo] = .ok (i, []) ↔
      byte ∧ Machine.assemblerOperation (Machine.AState.ofCode as) lo = i := fun i => by
    rw [decode_assembler, ← hbyte]
    split <;> simp [as, *]
  obtain ⟨seqReset, seqIdle, seqSample⟩ := decode_sequencer_eq_ok_iff cw lo hi
  obtain ⟨framerSync, framerByte⟩ := decode_framer_eq_ok_iff cw b
  obtain ⟨thr, dec, slice, start, crc, stop⟩ := decode_single_eq_ok_iff cw lo hi
  obtain ⟨asLength, asPayload, asCrcHi, asCrcLo⟩ := assemblerOperation_ofCode_eq_iff as lo
  exact ⟨seqReset, seqIdle, seqSample, thr.trans hsample, dec.trans hsample, slice.trans hbit,
    framerSync.trans hsync, start.trans hsync, framerByte.trans hshift,
    (hasm _).trans (and_congr_right' asLength), (hasm _).trans (and_congr_right' asPayload),
    (hasm _).trans (and_congr_right' asCrcHi), (hasm _).trans (and_congr_right' asCrcLo),
    crc.trans hcrc, stop.trans hbyte⟩

/-- Settles O2: each word evaluates. -/
theorem writtenWordsDecode : Obligations.WrittenWordsDecode :=
  ⟨rfl, rfl, rfl, rfl, rfl, rfl, rfl, rfl, rfl⟩

end Sys2Proof
end

section
/-! The dispatch words of a step: their bits, the instruction they decode to, and the operations of their row
(30_encoding.md R66 to R68; 44_pipeline_step.md R128 to R133). -/

namespace Sys2Proof.Machine

/-- The sequencer reads what the dispatch word and the sample port decode to (R67). -/
theorem decode_sequencer_cwByte (cw : BitVec 7) (v : Word) :
    ∃ rest, decode .sequencer (cwByte cw :: wordBytes v) = .ok (decodeCw cw v, rest) := by
  cases hreset : patReset.fires cw <;> cases hidle : patIdle.fires cw <;>
    simp [decode, decodeCw, hreset, hidle, wordBytes]

/-- The front end reads what its word and the byte port decode to (R68). -/
theorem decode_frontEnd_fwByte (fw : BitVec 3) (b : Byte) :
    ∃ rest, decode .frontEnd [0#5 ++ fw, b] = .ok (decodeFw fw b, rest) := by
  cases hrst : fw[2] <;> cases hvalid : fw[1] <;> simp [decode, decodeFw, hrst, hvalid]

/-- The bits of a dispatch word, as R66 names them. -/
theorem dispatchWord_bits (rst sv : Bool) (s : State) :
    (dispatchWord rst sv s).getLsbD 6 = rst ∧ (dispatchWord rst sv s).getLsbD 5 = sv ∧
      (dispatchWord rst sv s).getLsbD 4 = (s.decCnt == 1) ∧
      (dispatchWord rst sv s).getLsbD 3 = (s.fstate == .synced) := by
  have hbits : ∀ (p q r u v : Bool) (c : BitVec 2),
      let cw := BitVec.ofBool p ++ BitVec.ofBool q ++ BitVec.ofBool r ++ BitVec.ofBool u ++ BitVec.ofBool v ++ c
      cw.getLsbD 6 = p ∧ cw.getLsbD 5 = q ∧ cw.getLsbD 4 = r ∧ cw.getLsbD 3 = u := by decide
  exact hbits _ _ _ _ _ _

theorem frontWord_bits (rst inByteValid : Bool) (s : State) :
    (frontWord rst inByteValid s).getLsbD 2 = rst ∧ (frontWord rst inByteValid s).getLsbD 1 = inByteValid := by
  have hbits : ∀ p q r : Bool,
      let fw := BitVec.ofBool p ++ BitVec.ofBool q ++ BitVec.ofBool r
      fw.getLsbD 2 = p ∧ fw.getLsbD 1 = q := by decide
  exact hbits _ _ _

/-- `rst` has priority over a sample, and a sample over nothing (R67, R128). -/
theorem decodeCw_dispatchWord (rst sv : Bool) (s : State) (v : Word) :
    decodeCw (dispatchWord rst sv s) v = if rst then .reset else if sv then .sample v else .idle := by
  obtain ⟨hrst, hsv, _⟩ := dispatchWord_bits rst sv s
  rw [decodeCw, patReset_fires, patIdle_fires, hrst, hsv]
  cases rst <;> cases sv <;> rfl

/-- `rst` has priority over a byte (R68, R128). -/
theorem decodeFw_frontWord (rst inByteValid : Bool) (s : State) (b : Byte) :
    decodeFw (frontWord rst inByteValid s) b = if rst then .reset else if inByteValid then .byteIn b else .idle := by
  obtain ⟨hrst, hvalid⟩ := frontWord_bits rst inByteValid s
  rw [decodeFw, hrst, hvalid]

/-- What is fetched, as a function of the input alone (R67, R68, R128). -/
theorem fetch_eq (s : State) :
    fetch s =
      if (currentInput s).rst then .reset
      else
        match (currentInput s).port with
        | .quiet => .idle
        | .sample v => .sample v
        | .byte b => .byteIn b := by
  unfold fetch
  cases hport : (currentInput s).port with
  | quiet => simp [currentWord, decodeCw_dispatchWord, sampleArrives, hport]
  | sample v => simp [currentWord, decodeCw_dispatchWord, sampleArrives, portSample, hport]
  | byte b => simp [decodeFw_frontWord]

/-- The bytes of a step decode to what is fetched (R67, R68). -/
theorem decode_fetchImage (s : State) :
    ∃ rest, decode (fetchImage s).1 (fetchImage s).2 = .ok (fetch s, rest) := by
  unfold fetchImage fetch
  cases (currentInput s).port with
  | quiet | sample => exact decode_sequencer_cwByte _ _
  | byte b => exact decode_frontEnd_fwByte _ b

theorem currentInput_of_nil {s : State} (h : s.inputs = []) : currentInput s = ⟨false, .quiet⟩ := by
  simp [currentInput, h]

theorem currentInput_of_cons {s : State} {inp : Input} {rest : List Input} (h : s.inputs = inp :: rest) :
    currentInput s = inp := by
  simp [currentInput, h]

/-- Settles O5: the bytes decode to the fetched instruction, which is a function of the current input. -/
theorem dispatchWordsSelectTheStepKind : Obligations.DispatchWordsSelectTheStepKind := by
  refine fun s => ⟨decode_fetchImage s, fun h => ?_, fun inp rest h => ?_⟩
  · rw [fetch_eq, currentInput_of_nil h]
    rfl
  · rw [fetch_eq, currentInput_of_cons h]
    exact ⟨fun hr => if_pos hr, fun hr hp => by simp [hr, hp], fun v hr hp => by simp [hr, hp],
      fun b hr hp => by simp [hr, hp]⟩

/-! ### Sequences of instructions -/

/-- With `N ≥ 2` a sequence of instructions completes, and is their effects one after another. -/
theorem execAll_eq_foldl_effect (is : List Instr) {s : State} (hn : 2 ≤ s.cfg.n) :
    execAll is s = .next (is.foldl (fun s i => effect i s) s) := by
  induction is generalizing s with
  | nil => rfl
  | cons i is ih =>
    rw [execAll, exec_eq_next.2 ⟨hn, rfl⟩, andThen_next, ih (by rwa [effect_cfg]), List.foldl_cons]

/-- R67's row of a sample step: off a boundary the slicer's two operations, on one the framer's as well (R133). -/
theorem operationMap_dispatchWord (s : State) (v : Word) (b : Bit) :
    operationMap (dispatchWord false true s) v b =
      [.thrUpdate v, .decimate] ++ if s.decCnt = 1 then [.slice v, framerOperation s.fstate b] else [] := by
  obtain ⟨hrst, hsv, hlast, hsynced⟩ := dispatchWord_bits false true s
  rw [operationMap, patReset_fires, patIdle_fires, patSyncShift_fires, patByteShift_fires, patSlice_fires,
    patThrUpdate_fires, hrst, hsv, hlast, hsynced]
  by_cases h : s.decCnt = 1 <;> cases s.fstate <;> simp [h, framerOperation]

theorem effect_framerOperation {f : FState} {s : State} (hf : s.fstate = f) (b : Bit) :
    effect (framerOperation f b) s = receiveBit b s := by
  unfold receiveBit
  rw [hf]
  cases f <;> rfl

/-- `SAMPLE` through the operations it calls (R130). -/
theorem sampleStep_eq_operations (v : Word) (s : State) :
    sampleStep v s =
      if s.decCnt = 1 then
        receiveBit (slicedBit v (nextThreshold s.cfg v s.threshold)) (slice v (decimate (thrUpdate v s)))
      else decimate (thrUpdate v s) := by
  simp [sampleStep, sliceAtBoundary]

/-- Settles O6: off a boundary and on one, the effects of the row's operations are the sample step. -/
theorem sampleRunsTheOperationMap : Obligations.SampleRunsTheOperationMap := by
  intro s v hn
  rw [exec_eq_next.2 ⟨hn, rfl⟩, execAll_eq_foldl_effect _ (s := beginStep s) hn, operationMap_dispatchWord]
  refine congrArg _ ((sampleStep_eq_operations v (beginStep s)).trans ?_)
  by_cases h : s.decCnt = 1
  · rw [if_pos h, beginStep_decCnt, if_pos h]
    exact (effect_framerOperation (by simp) _).symm
  · rw [if_neg h, beginStep_decCnt, if_neg h]
    rfl

/-! ### Wire patterns keep the invariant -/

theorem blockInvariant_receiveBits (bs : List Bit) {s : State} (h : BlockInvariant s) :
    BlockInvariant (receiveBits bs s) := by
  induction bs generalizing s with
  | nil => exact h
  | cons b bs ih => exact ih (blockInvariant_receiveBit h b)

theorem blockInvariant_wirePattern {s : State} (h : BlockInvariant s) {i : Instr} (hi : isWirePattern i = true) :
    BlockInvariant (effect i s) := by
  have hbegin : BlockInvariant (beginStep s) := { h with }
  cases i with
  | wireSyncWord | wireSyncWordInv | wireLen | wireLenOversize | wirePayloadByte | wireCrcHi | wireCrcLo =>
    exact blockInvariant_receiveBits _ hbegin
  | wireSample v => exact blockInvariant_byteIn (blockInvariant_byteIn hbegin _) _
  | _ => cases hi

/-- Settles O56: with `N ≥ 2` the instruction answers its effect, and a step kind's effect and a wire pattern's keep the
invariant. -/
theorem stepKindsAndWirePatternsComplete : Obligations.StepKindsAndWirePatternsComplete := by
  intro i s hi h
  exact ⟨effect i s, exec_eq_next.2 ⟨h.configured, rfl⟩,
    hi.elim (blockInvariant_effect h) (blockInvariant_wirePattern h)⟩

end Sys2Proof.Machine
end

section
/-! A stimulus of two levels on the slicer: the threshold stays between the levels, and each bit's samples deliver that
bit to the framer (30_encoding.md R74; 41_bit_slicer.md R87, R92, R93, R95). -/

namespace Sys2Proof.Machine

/-! ### Two levels -/

/-- The threshold lies below the upper level and not below the lower one (R95). -/
def BetweenLevels (a : Nat) (th : Word) : Prop := -(a : Int) ≤ th.toInt ∧ th.toInt ≤ (a : Int) - 1

theorem levelOf_one_toInt {a : Nat} (ha : a ≤ 32767) : (levelOf a 1#1).toInt = a := by
  rw [levelOf, if_pos rfl, BitVec.toInt_ofNat', Int.bmod_def]
  simp
  omega

theorem levelOf_zero_toInt {a : Nat} (ha : a ≤ 32767) : (levelOf a 0#1).toInt = -(a : Int) := by
  rw [levelOf, if_neg (by decide), BitVec.toInt_neg, BitVec.toInt_ofNat', Int.bmod_def, Int.bmod_def]
  simp
  omega

/-- A quotient rounds below a positive bound that it lies below, in either rounding (R88). -/
theorem roundedQuotient_lt (m : DivMode) {acc k b : Int} (hk : 0 < k) (hb : 0 < b) (h : acc < k * b) :
    roundedQuotient m acc k < b := by
  cases m with
  | towardZero =>
    obtain ⟨hpos, hneg⟩ := tdiv_bounds acc k hk
    simp only [roundedQuotient]
    rcases le_total 0 acc with h0 | h0
    · obtain ⟨hle, _, _⟩ := hpos h0
      exact lt_of_mul_lt_mul_left (hle.trans_lt h) hk.le
    · obtain ⟨_, _, hle⟩ := hneg h0
      omega
  | floor => exact lt_of_mul_lt_mul_left ((fdiv_bounds acc k hk).1.trans_lt h) hk.le

/-- An upper-level sample leaves a threshold below the upper level below it (R95). -/
theorem nextThreshold_lt_of_level {c : Config} (hn : 2 ≤ c.n) {a : Nat} (ha : 1 ≤ a) {v th : Word} (hv : v.toInt = a)
    (hth : th.toInt ≤ (a : Int) - 1) : (nextThreshold c v th).toInt < a := by
  have hk : 16 ≤ (averagingWeight c : Int) := by simp only [averagingWeight, avgWindow]; omega
  rw [nextThreshold_toInt c v th (by omega)]
  refine roundedQuotient_lt _ (by omega) (by omega) ?_
  rw [thresholdAcc, hv]
  nlinarith

/-- The new threshold lies between the sample and the old one (R89). -/
theorem nextThreshold_between {c : Config} (hn : 2 ≤ c.n) (v th : Word) :
    min v.toInt th.toInt ≤ (nextThreshold c v th).toInt ∧ (nextThreshold c v th).toInt ≤ max v.toInt th.toInt := by
  rw [nextThreshold_toInt c v th (by omega)]
  exact roundedQuotient_between _ _ _ _ (by simp only [averagingWeight, avgWindow]; omega)

/-- The two-level lemma: the threshold stays between the levels, and the bit sliced is the sample's (R95). -/
theorem nextThreshold_level {c : Config} (hn : 2 ≤ c.n) {a : Nat} (ha : 1 ≤ a) (ha' : a ≤ 32767) {th : Word}
    (hth : BetweenLevels a th) (b : Bit) :
    BetweenLevels a (nextThreshold c (levelOf a b) th) ∧
      slicedBit (levelOf a b) (nextThreshold c (levelOf a b) th) = b := by
  obtain ⟨hlo, hhi⟩ := hth
  obtain ⟨hmin, hmax⟩ := nextThreshold_between hn (levelOf a b) th
  rcases bit_cases b with rfl | rfl
  · rw [levelOf_zero_toInt ha'] at hmin hmax
    have hrange : BetweenLevels a (nextThreshold c (levelOf a 0#1) th) := ⟨by omega, by omega⟩
    exact ⟨hrange, by simp [slicedBit, levelOf_zero_toInt ha', not_lt.2 hrange.1]⟩
  · have hlt := nextThreshold_lt_of_level hn ha (levelOf_one_toInt ha') hhi
    rw [levelOf_one_toInt ha'] at hmin
    exact ⟨⟨by omega, by omega⟩, by simp [slicedBit, levelOf_one_toInt ha', hlt]⟩

/-! ### Runs -/

theorem runEvents_succ {s t : State} (h : step s = .next t) (k : Nat) :
    runEvents (k + 1) s = (runEvents k t).map fun r => (r.1, t.events ++ r.2) := by
  rw [runEvents, h]

theorem runEvents_one {s t : State} (h : step s = .next t) : runEvents 1 s = some (t, t.events) :=
  (runEvents_succ h 0).trans (by simp [runEvents])

/-- A run is its first steps and then the rest (R135). -/
theorem runEvents_add {j : Nat} {s t : State} {es : List Event} (h : runEvents j s = some (t, es)) (k : Nat) :
    runEvents (j + k) s = (runEvents k t).map fun r => (r.1, es ++ r.2) := by
  induction j generalizing s es with
  | zero =>
    obtain ⟨rfl, rfl⟩ : s = t ∧ [] = es := by simpa [runEvents] using h
    simp
  | succ j ih =>
    rw [Nat.succ_add]
    cases hstep : step s with
    | next u =>
      rw [runEvents_succ hstep, Option.map_eq_some_iff] at h
      obtain ⟨⟨t', es'⟩, hrun, heq⟩ := h
      obtain ⟨rfl, rfl⟩ : t' = t ∧ u.events ++ es' = es := by simpa using heq
      rw [runEvents_succ hstep, ih hrun, Option.map_map]
      simp [Function.comp_def]
    | fault f => simp [runEvents, hstep] at h
    | refused r => simp [runEvents, hstep] at h

/-- A sample on the port is a `SAMPLE` step (R67). -/
theorem step_sampleLine {s : State} {v : Word} {rest : List Input} (hn : 2 ≤ s.cfg.n)
    (h : s.inputs = sampleLine v :: rest) : step s = .next (sampleStep v { beginStep s with inputs := rest }) := by
  have hfetch : fetch s = .sample v := by
    rw [fetch_eq, currentInput_of_cons h]
    rfl
  rw [step, hfetch, (exec_eq_next (s := consumeInput s)).2 ⟨hn, rfl⟩]
  simp [effect, beginStep, consumeInput, h]

/-! ### The samples of a bit -/

/-- `k + 1` samples of a bit's level with `k + 1` steps left on the counter: the last one delivers the bit, and no event
comes before it (R91, R93, R95). -/
theorem runEvents_levels {a : Nat} (ha : 1 ≤ a) (ha' : a ≤ 32767) (b : Bit) (rest : List Input) (k : Nat) {s : State}
    (hn : 2 ≤ s.cfg.n) (hdec : s.decCnt = k + 1) (hth : BetweenLevels a s.threshold)
    (hin : s.inputs = List.replicate (k + 1) (sampleLine (levelOf a b)) ++ rest) :
    ∃ th, BetweenLevels a th ∧
      let t := receiveBit b
        { beginStep s with threshold := th, decCnt := s.cfg.n, boundary := true, bitTap := some b, inputs := rest }
      runEvents (k + 1) s = some (t, t.events) := by
  induction k generalizing s with
  | zero =>
    obtain ⟨hnext, hbit⟩ := nextThreshold_level hn ha ha' hth b
    have hstep := step_sampleLine hn hin
    rw [sampleStep_on (by exact hdec)] at hstep
    simp only [beginStep_cfg, beginStep_threshold, hbit] at hstep
    exact ⟨_, hnext, runEvents_one hstep⟩
  | succ k ih =>
    have hstep := step_sampleLine hn hin
    rw [sampleStep_off (by simp [hdec])] at hstep
    obtain ⟨th, hrange, hrun⟩ := ih (s := { beginStep s with
        threshold := nextThreshold s.cfg (levelOf a b) s.threshold, decCnt := s.decCnt - 1, boundary := false
        inputs := List.replicate (k + 1) (sampleLine (levelOf a b)) ++ rest })
      hn (by simp [hdec]) (nextThreshold_level hn ha ha' hth b).1 rfl
    refine ⟨th, hrange, ?_⟩
    rw [runEvents_succ hstep]
    exact congrArg (Option.map _) hrun

/-- Settles O59: at the reload the counter has `N` steps left. -/
theorem bitStimulusDeliversItsBit : Obligations.BitStimulusDeliversItsBit := by
  intro s a b rest hn hdec ha ha' hlo hhi hin
  obtain ⟨k, hk⟩ : ∃ k, s.cfg.n = k + 1 := ⟨s.cfg.n - 1, by omega⟩
  rw [bitStimulus, hk] at hin
  obtain ⟨th, hth, hrun⟩ := runEvents_levels ha ha' b rest k hn (hdec.trans hk) ⟨hlo, hhi⟩ hin
  refine ⟨th, hth, ?_⟩
  rw [← hk, ← hdec] at hrun
  rw [← hdec]
  exact hrun

end Sys2Proof.Machine
end

section
/-! A packet on the bit stream: the sync word starts a session, the frame's bytes are taken one after another, and the
last one emits the payload (30_encoding.md R60 to R63; 42_sync_framer.md R111; 43_packet_assembler.md R113 to R126). -/

namespace Sys2Proof.Machine

/-! ### The sync word -/

/-- A searching framer that no earlier match disturbs acquires on a sync word's last bit (R100, R102, R111). -/
theorem receiveWord_syncWord {s : State} {w : Word} (hf : s.fstate = .searching) (hw : isSyncWord w = true)
    (hearly : NoEarlyMatch s.syncReg w) :
    receiveWord w s =
      { s with
        syncReg := w, fstate := .synced, bitCnt := 8#4
        astate := .awaitLength, offset := 0#8, crcAcc := s.cfg.crcSeed, rxCrc := 0x0000#16
        events := s.events ++ if s.cfg.verbose then [.sync w] else [] } := by
  obtain ⟨front, last, hsplit, hfront, hlen⟩ :
      ∃ front last, msbFirst w = front ++ [last] ∧ front = (msbFirst w).take 15 ∧ front.length = 15 :=
    ⟨(msbFirst w).take 15, w.extractLsb' 0 1, rfl, rfl, rfl⟩
  have hshift := shift_word s.syncReg w
  rw [hsplit, List.foldl_append, List.foldl_cons, List.foldl_nil] at hshift
  have hsearch : receiveBits front s = { s with syncReg := front.foldl shiftIntoSync s.syncReg } := by
    refine receiveBits_searching hf fun k hk hk' => ?_
    rw [hfront, List.take_take, min_eq_left (hlen ▸ hk')]
    exact hearly k hk (by omega)
  rw [receiveWord, hsplit, receiveBits_append, hsearch, receiveBits_cons, receiveBits_nil,
    receiveBit_searching (by exact hf)]
  rcases syncShift_cases last { s with syncReg := front.foldl shiftIntoSync s.syncReg } with ⟨_, e⟩ | ⟨hno, _⟩
  · rw [e, hshift]
  · rw [hshift, hw] at hno
    cases hno

/-! ### The bytes of a frame -/

/-- A session at a byte boundary whose length byte was `len` and whose payload bytes so far are `ds` (R114, R115, R120,
R124). -/
structure FrameTaken (s : State) (len : Byte) (ds : List Byte) : Prop where
  fstate : s.fstate = .synced
  bitCnt : s.bitCnt = 8#4
  legal : len.toNat ≤ maxLen
  length : s.length = len
  offset : s.offset.toNat = ds.length
  astate : s.astate = if ds.length = len.toNat then .readCrcHi else .readPayload
  crcAcc : s.crcAcc = crcSeq s.cfg.crcSeed (len :: ds)
  stored : payloadPrefix s ds.length = ds

/-- In a session a byte at a byte boundary leaves `sync_reg` (R107). -/
theorem receiveByte_syncReg {s : State} (hf : s.fstate = .synced) (hb : s.bitCnt = 8#4) (d : Byte) :
    (receiveByte d s).syncReg = s.syncReg := by
  obtain ⟨_, hreg, _⟩ := deliverByte_frame d { s with byteAcc := d }
  rw [receiveByte_aligned hf hb, endIfEnded_syncReg, hreg]

/-- The length byte of a legal frame (R114). -/
theorem receiveByte_length {s : State} (h : SessionStart s) {len : Byte} (hlen : len.toNat ≤ maxLen) :
    FrameTaken (receiveByte len s) len [] ∧
      (receiveByte len s).events = s.events ++ if s.cfg.verbose then [.length len] else [] := by
  have hne : len ≠ 0xFF#8 := by rintro rfl; revert hlen; decide
  rw [receiveByte_aligned h.fstate h.bitCnt]
  simp only [deliverByte, h.astate]
  rw [asmLength_legal hne, endIfEnded_of_not_ended rfl]
  refine ⟨⟨h.fstate, h.bitCnt, hlen, rfl, by simp [h.offset], ?_, by simp [h.crcAcc, crcSeq], rfl⟩, rfl⟩
  have hzero : len = 0#8 ↔ 0 = len.toNat := by bv_omega
  simp [hzero]

/-- The next payload byte of a frame (R115). -/
theorem receiveByte_payload {s : State} {len : Byte} {ds : List Byte} (h : FrameTaken s len ds)
    (hlt : ds.length < len.toNat) (d : Byte) :
    FrameTaken (receiveByte d s) len (ds ++ [d]) ∧ (receiveByte d s).events = s.events := by
  have hlegal := h.legal
  have hoff := h.offset
  have hin : s.offset.toNat < bufCap := by simp only [bufCap, maxLen] at *; omega
  have hsucc : (s.offset + 1).toNat = ds.length + 1 := by simp only [maxLen] at hlegal; bv_omega
  have hlast : s.offset + 1#8 = len ↔ ds.length + 1 = len.toNat := by
    rw [← BitVec.toNat_inj]
    exact hsucc ▸ Iff.rfl
  have ha : s.astate = .readPayload := by rw [h.astate, if_neg hlt.ne]
  rw [receiveByte_aligned h.fstate h.bitCnt]
  simp only [deliverByte, ha]
  rw [asmPayload_inside (by exact hin), endIfEnded_of_not_ended rfl]
  refine ⟨⟨h.fstate, h.bitCnt, hlegal, h.length, by simpa using hsucc, ?_, ?_, ?_⟩, rfl⟩
  · simp [h.length, hlast]
  · rw [← List.cons_append, crcSeq_snoc, ← h.crcAcc]
  · rw [payloadPrefix, List.length_append, List.length_singleton,
      bufPrefix_write (s := s) (d := d) _ (by rw [← hoff])]
    exact congrArg (· ++ [d]) h.stored

/-- The bytes as bits, in the order they arrive (R47, R61). -/
def byteBits (ds : List Byte) : List Bit := ds.flatMap msbFirst

theorem receiveBits_byteBits_nil (s : State) : receiveBits (byteBits []) s = s := rfl

theorem receiveBits_byteBits_append (ds es : List Byte) (s : State) :
    receiveBits (byteBits (ds ++ es)) s = receiveBits (byteBits es) (receiveBits (byteBits ds) s) := by
  rw [byteBits, List.flatMap_append, receiveBits_append]
  rfl

theorem receiveBits_byteBits_cons (d : Byte) (ds : List Byte) (s : State) :
    receiveBits (byteBits (d :: ds)) s = receiveBits (byteBits ds) (receiveByte d s) := by
  rw [byteBits, List.flatMap_cons, receiveBits_append]
  rfl

/-- The rest of a frame's payload, by its bytes (R115, R124). -/
theorem receiveBits_payload {s : State} {len : Byte} {ds es : List Byte} (h : FrameTaken s len ds)
    (hlen : (ds ++ es).length ≤ len.toNat) :
    FrameTaken (receiveBits (byteBits es) s) len (ds ++ es) ∧ (receiveBits (byteBits es) s).events = s.events ∧
      (receiveBits (byteBits es) s).syncReg = s.syncReg := by
  induction es generalizing s ds with
  | nil => exact ⟨(List.append_nil ds).symm ▸ h, rfl, rfl⟩
  | cons e es ih =>
    rw [List.append_cons] at hlen ⊢
    obtain ⟨htaken, hevents⟩ := receiveByte_payload h (by simp at hlen; omega) e
    obtain ⟨ihtaken, ihevents, ihreg⟩ := ih htaken hlen
    rw [receiveBits_byteBits_cons]
    exact ⟨ihtaken, ihevents.trans hevents, ihreg.trans (receiveByte_syncReg h.fstate h.bitCnt e)⟩

/-- The checksum's first byte is held (R116). -/
theorem receiveByte_crcHi {s : State} (hf : s.fstate = .synced) (hb : s.bitCnt = 8#4) (ha : s.astate = .readCrcHi)
    (d : Byte) :
    receiveByte d s = { s with byteAcc := d, rxCrc := d ++ 0x00#8, astate := .readCrcLo, ended := false } := by
  rw [receiveByte_aligned hf hb, deliverByte, ha, endIfEnded_of_not_ended rfl]
  rfl

/-- The checksum's second byte ends the session with the packet, where the checksum is the accumulator's (R117,
R118). -/
theorem receiveByte_crcLo_accept {s : State} (hf : s.fstate = .synced) (hb : s.bitCnt = 8#4)
    (ha : s.astate = .readCrcLo) {d : Byte} (hd : complementChecksum (checksumOfBytes s.rxCrc d) = s.crcAcc) :
    receiveByte d s =
      { s with
        byteAcc := d, rxCrc := s.crcAcc, ended := true, endCode := .accepted, fstate := .searching
        events := s.events ++ [.packet s.length (readPayload s)] } := by
  rw [receiveByte_aligned hf hb, deliverByte, ha]
  simp only
  rw [asmCrcLo_accept (by exact hd), endIfEnded_of_ended rfl]
  rfl

/-- Both bytes of the accumulator's checksum end the session with the packet (R116 to R118). -/
theorem receiveBits_checksum_accept {s : State} (hf : s.fstate = .synced) (hb : s.bitCnt = 8#4)
    (ha : s.astate = .readCrcHi) {hi lo : Byte} (h : complementChecksum (hi ++ lo) = s.crcAcc) :
    let t := receiveBits (byteBits [hi, lo]) s
    t.fstate = .searching ∧ t.syncReg = s.syncReg ∧ t.events = s.events ++ [.packet s.length (readPayload s)] := by
  have hreceived : checksumOfBytes (hi ++ 0x00#8) lo = hi ++ lo := by
    rw [checksumOfBytes, BitVec.extractLsb'_append_eq_left]
  rw [receiveBits_byteBits_cons, receiveBits_byteBits_cons, receiveBits_byteBits_nil, receiveByte_crcHi hf hb ha,
    receiveByte_crcLo_accept (by exact hf) (by exact hb) rfl (by exact hreceived ▸ h)]
  exact ⟨rfl, rfl, rfl⟩

/-- The checksum of the bytes taken ends the session with their `PACKET` (R63, R116 to R118). -/
theorem receiveBits_checksum {s : State} {len : Byte} {ds : List Byte} (h : FrameTaken s len ds)
    (hlen : ds.length = len.toNat) :
    let c := complementChecksum s.crcAcc
    let t := receiveBits (byteBits [c.extractLsb' 8 8, c.extractLsb' 0 8]) s
    t.fstate = .searching ∧ t.syncReg = s.syncReg ∧ t.events = s.events ++ [.packet len ds] := by
  have ha : s.astate = .readCrcHi := by rw [h.astate, if_pos hlen]
  have hpayload : readPayload s = ds := by
    rw [readPayload, h.length, ← hlen]
    exact h.stored
  obtain ⟨hstate, hreg, hevents⟩ := receiveBits_checksum_accept h.fstate h.bitCnt ha
    (hi := (complementChecksum s.crcAcc).extractLsb' 8 8) (lo := (complementChecksum s.crcAcc).extractLsb' 0 8)
    (by rw [halves_append, complementChecksum_involutive])
  rw [hpayload, h.length] at hevents
  exact ⟨hstate, hreg, hevents⟩

/-- The frame of a payload, received in a fresh session, declares its length and emits exactly that payload (R61,
R126). -/
theorem receiveBits_frame_emits {s : State} (h : SessionStart s) {payload : List Byte} (hlen : payload.length ≤ 254) :
    let len := BitVec.ofNat 8 payload.length
    let t := receiveBits (byteBits (frameBytes s.cfg.crcSeed payload)) s
    t.fstate = .searching ∧ t.syncReg = s.syncReg ∧
      t.events = s.events ++ (if s.cfg.verbose then [.length len] else []) ++ [.packet len payload] := by
  intro len
  have hnat : payload.length = len.toNat := by simp only [len, BitVec.toNat_ofNat]; omega
  obtain ⟨htaken, hevents⟩ := receiveByte_length h (len := len) (hnat ▸ hlen)
  obtain ⟨htaken', hevents', hreg'⟩ := receiveBits_payload htaken (es := payload) hnat.le
  have hcrc : frameChecksum s.cfg.crcSeed payload =
      complementChecksum (receiveBits (byteBits payload) (receiveByte len s)).crcAcc := by
    rw [htaken'.crcAcc, (receiveBits_frame _ _).cfg, receiveByte, (receiveBits_frame _ _).cfg]
    rfl
  obtain ⟨hstate, hreg, hpacket⟩ := receiveBits_checksum htaken' hnat
  dsimp only
  rw [frameBytes, List.cons_append, receiveBits_byteBits_cons, receiveBits_byteBits_append, hcrc]
  exact ⟨hstate, hreg.trans (hreg'.trans (receiveByte_syncReg h.fstate h.bitCnt len)),
    hpacket.trans (by rw [hevents', hevents, List.nil_append])⟩

/-- The bits of a packet: the sync word's start a session, the frame's emit its payload (R61, R111, R126). -/
theorem receiveBits_packet {s : State} (hf : s.fstate = .searching) (hearly : NoEarlyMatch s.syncReg syncWord)
    {payload : List Byte} (hlen : payload.length ≤ 254) :
    let len := BitVec.ofNat 8 payload.length
    let t := receiveBits (msbFirst syncWord ++ byteBits (frameBytes s.cfg.crcSeed payload)) s
    t.fstate = .searching ∧ t.syncReg = syncWord ∧
      t.events = s.events ++
        if s.cfg.verbose then [.sync syncWord, .length len, .packet len payload] else [.packet len payload] := by
  have hacquired := receiveWord_syncWord hf (by decide : isSyncWord syncWord = true) hearly
  rw [receiveBits_append, ← receiveWord, hacquired]
  obtain ⟨hstate, hreg, hevents⟩ := receiveBits_frame_emits
    (s := { s with
      syncReg := syncWord, fstate := .synced, bitCnt := 8#4
      astate := .awaitLength, offset := 0#8, crcAcc := s.cfg.crcSeed, rxCrc := 0x0000#16
      events := s.events ++ if s.cfg.verbose then [.sync syncWord] else [] })
    ⟨rfl, rfl, rfl, rfl, rfl, rfl⟩ hlen
  refine ⟨hstate, hreg, hevents.trans ?_⟩
  cases s.cfg.verbose <;> simp

/-! ### A packet's stimulus -/

theorem bitsStimulus_cons (n a : Nat) (b : Bit) (bs : List Bit) :
    bitsStimulus n a (b :: bs) = bitStimulus n a b ++ bitsStimulus n a bs := rfl

/-- A packet's stimulus is that of its bits: the sync word's, then the frame's (R61, R74). -/
theorem packetStimulus_eq (n a : Nat) (seed : Word) (payload : List Byte) :
    packetStimulus n a seed payload = bitsStimulus n a (msbFirst syncWord ++ byteBits (frameBytes seed payload)) := by
  have hsync : msbFirst syncWord = msbFirst 0x2D#8 ++ msbFirst 0xAA#8 := by decide
  rw [hsync]
  simp only [packetStimulus, syncStimulus, frameStimulus, byteStimulus, bitsStimulus, byteBits, List.flatMap_append,
    List.flatMap_assoc]
  rfl

/-- The slicer stands at a bit boundary, its threshold between the levels (R19, R95). -/
structure AtReload (a : Nat) (s : State) : Prop where
  configured : 2 ≤ s.cfg.n
  decCnt : s.decCnt = s.cfg.n
  threshold : BetweenLevels a s.threshold

/-- The samples of a bit do to the framer what the bit does, with the same events, and end at the next bit boundary
(R74, R95). -/
theorem runEvents_bitStimulus {a : Nat} (ha : 1 ≤ a) (ha' : a ≤ 32767) {b : Bit} {rest : List Input} {s u : State}
    (h : AtReload a s) (hin : s.inputs = bitStimulus s.cfg.n a b ++ rest) (hsame : FramerSame u s) :
    ∃ t es, runEvents s.cfg.n s = some (t, es) ∧ FramerSame (receiveBit b u) t ∧
      (receiveBit b u).events = u.events ++ es ∧ AtReload a t ∧ t.cfg = s.cfg ∧ t.inputs = rest := by
  obtain ⟨th, hrange, hrun⟩ :=
    bitStimulusDeliversItsBit s a b rest h.configured h.decCnt ha ha' h.threshold.1 h.threshold.2 hin
  have f := receiveBit_frame b
    { beginStep s with threshold := th, boundary := true, bitTap := some b, inputs := rest }
  obtain ⟨hbit, l, hul, htl⟩ := receiveBit_congr b (s := u)
    (t := { beginStep s with threshold := th, boundary := true, bitTap := some b, inputs := rest })
    ⟨hsame.cfg, hsame.fstate, hsame.syncReg, hsame.byteAcc, hsame.bitCnt, hsame.astate, hsame.length, hsame.offset,
      hsame.crcAcc, hsame.rxCrc, hsame.buf⟩
  exact ⟨_, l, hrun.trans (by rw [htl]; rfl), hbit, hul,
    ⟨f.cfg ▸ h.configured, f.decCnt.trans (h.decCnt.trans (congrArg Config.n f.cfg.symm)), f.threshold ▸ hrange⟩,
    f.cfg, f.inputs⟩

/-- Whole steps on a two-level stimulus do to the framer what its bits do, with the same events in the same order (R74,
R95, R135). -/
theorem runEvents_bitsStimulus {a : Nat} (ha : 1 ≤ a) (ha' : a ≤ 32767) (bs : List Bit) {s u : State}
    (h : AtReload a s) (hin : s.inputs = bitsStimulus s.cfg.n a bs) (hsame : FramerSame u s) :
    ∃ t es, runEvents s.inputs.length s = some (t, es) ∧ FramerSame (receiveBits bs u) t ∧
      (receiveBits bs u).events = u.events ++ es := by
  induction bs generalizing s u with
  | nil => exact ⟨s, [], by rw [hin]; rfl, hsame, by simp⟩
  | cons b bs ih =>
    rw [bitsStimulus_cons] at hin
    obtain ⟨v, es, hrun, hsame', hes, h', hcfg, hin'⟩ := runEvents_bitStimulus ha ha' h hin hsame
    obtain ⟨t, es', hrun', hsame'', hes'⟩ := ih h' (by rw [hin', hcfg]) hsame'
    refine ⟨t, es ++ es', ?_, hsame'', ?_⟩
    · have hlen : s.inputs.length = s.cfg.n + v.inputs.length := by
        rw [hin, hin', List.length_append, bitStimulus, List.length_replicate]
      rw [hlen, runEvents_add hrun, hrun']
      rfl
    · rw [receiveBits_cons, hes', hes, List.append_assoc]

/-- Settles O60: the run does to the framer what the packet's bits do, with their events. -/
theorem packetStimulusEmitsItsPayload : Obligations.PacketStimulusEmitsItsPayload := by
  intro s a payload h hf hdec hearly ha ha' hlo hhi hlen hin
  rw [packetStimulus_eq] at hin
  obtain ⟨t, es, hrun, hsame, hes⟩ := runEvents_bitsStimulus ha ha' _ ⟨h.configured, hdec, hlo, hhi⟩ hin
    (u := beginStep s) ⟨rfl, rfl, rfl, rfl, rfl, rfl, rfl, rfl, rfl, rfl, rfl⟩
  obtain ⟨hstate, hreg, hevents⟩ := receiveBits_packet (s := beginStep s) hf hearly hlen
  have hemitted := List.append_cancel_left (hes.symm.trans hevents)
  exact ⟨t, hemitted ▸ hrun, hsame.fstate.trans hstate, hsame.syncReg.trans hreg⟩

end Sys2Proof.Machine
end

section
/-! The CRC Engine: the model's byte update is R80's, and `crc_seq` keeps two sequences apart once they differ
(40_crc_engine.md R80 to R84). -/

namespace Sys2Proof.Machine

/-- The bit shifted out is the word's top bit (R80). -/
theorem crcIteration_eq_msb (c : Word) :
    crcIteration c = if c.msb then (c <<< 1) ^^^ 0x1021#16 else c <<< 1 := by
  rw [BitVec.msb_eq_getLsbD_last]
  rfl

theorem crcIterations_eq_iterate (k : Nat) (c : Word) : crcIterations k c = crcIteration^[k] c := by
  induction k generalizing c with
  | zero => rfl
  | succ k ih => exact ih (crcIteration c)

/-- A byte over eight zeros is the byte shifted to bits 15:8 (D23). -/
theorem append_zero_byte_eq_shiftLeft (d : Byte) : (d ++ 0x00#8 : Word) = d.zeroExtend 16 <<< 8 := by
  have h := BitVec.setWidth_append_eq_shiftLeft_setWidth_or (b := d) (b' := 0x00#8) (w'' := 16)
  rwa [BitVec.setWidth_eq, BitVec.setWidth_zero, BitVec.or_zero] at h

/-- `CRC_UPDATE` as R80 writes it. -/
theorem crcByte_eq_foldl (crc : Word) (d : Byte) :
    crcByte crc d =
      (List.range 8).foldl (fun c _ => if c.msb then (c <<< 1) ^^^ 0x1021#16 else c <<< 1)
        (crc ^^^ (d.zeroExtend 16 <<< 8)) := by
  simp only [crcByte, append_zero_byte_eq_shiftLeft, crcIterations_eq_iterate, ← crcIteration_eq_msb, List.foldl_const,
    List.length_range]

/-- Settles O25: the effect writes `crcOut` alone, with the value of `crcByte_eq_foldl`. -/
theorem crcUpdateIsEightShifts : Obligations.CrcUpdateIsEightShifts := by
  intro s crc d hn
  rw [← crcByte_eq_foldl]
  exact exec_eq_next.2 ⟨hn, rfl⟩

/-- Each byte is taken after those before it (R82). -/
theorem crcSeq_append_cons (seed : Word) (front back : List Byte) (d : Byte) :
    crcSeq seed (front ++ d :: back) = crcSeq (crcByte (crcSeq seed front) d) back := by
  simp only [crcSeq, List.foldl_append, List.foldl_cons]

/-- Running values that differ stay different through every later update (R83 (c)). -/
theorem crcSeq_seed_injective (ds : List Byte) : Function.Injective fun seed => crcSeq seed ds := by
  induction ds with
  | nil => exact fun _ _ h => h
  | cons d ds ih => exact fun a b h => crcByte_register_injective a b d (ih h)

/-- Settles O27: the running values differ after the differing byte and stay different to the end. -/
theorem oneWrongByteChangesTheCrc : Obligations.OneWrongByteChangesTheCrc := by
  intro seed front back d e hne h
  rw [crcSeq_append_cons, crcSeq_append_cons] at h
  exact hne (crcByte_byte_injective _ d e (crcSeq_seed_injective back h))

/-- Settles O26: the fold of R82 and the eight iterations of each byte, evaluated. -/
theorem crcCheckValues : Obligations.CrcCheckValues := by
  simp [Obligations.CrcCheckValues, crcSeq, crcByte, crcIterations, crcIteration, crcPoly]

end Sys2Proof.Machine
end

section
/-! The Bit Slicer's operations: the rounded mean and how it moves, the counter, the comparison, and the byte pair
(41_bit_slicer.md R86 to R96). -/

namespace Sys2Proof.Machine

/-! ### The quotient toward zero -/

theorem averagingWeight_cast (c : Config) : (averagingWeight c : Int) = 8 * c.n := by
  simp [averagingWeight, avgWindow]

/-- The accumulator of R87 as the old threshold's share and the distance `e` of R96. -/
theorem thresholdAcc_eq (c : Config) (v th : Word) :
    thresholdAcc c v th = averagingWeight c * th.toInt + (v.toInt - th.toInt) := by
  rw [thresholdAcc]
  ring

theorem roundedQuotient_towardZero_neg (acc k : Int) :
    roundedQuotient .towardZero (-acc) k = -roundedQuotient .towardZero acc k :=
  Int.neg_tdiv acc k

/-- Away from zero a distance below the weight is lost (R96 (b)). -/
theorem roundedQuotient_eq_of_nonneg {k th e : Int} (hth : 0 ≤ th) (he : 0 ≤ e) (hek : e < k) :
    roundedQuotient .towardZero (k * th + e) k = th := by
  have hk : 0 < k := he.trans_lt hek
  calc (k * th + e).tdiv k
    _ = (k * th + e) / k := Int.tdiv_eq_ediv_of_nonneg (add_nonneg (mul_nonneg hk.le hth) he)
    _ = th + e / k := Int.mul_add_ediv_left _ _ hk.ne'
    _ = th := by rw [Int.ediv_eq_zero_of_lt he hek, add_zero]

/-- A quotient toward zero is below a bound that is not positive when the dividend is a whole divisor below it. -/
theorem roundedQuotient_lt_iff_of_nonpos {acc k b : Int} (hk : 0 < k) (hb : b ≤ 0) :
    roundedQuotient .towardZero acc k < b ↔ acc ≤ k * (b - 1) := by
  obtain ⟨hpos, hneg⟩ := tdiv_bounds acc k hk
  simp only [roundedQuotient]
  rcases le_total 0 acc with h0 | h0
  · obtain ⟨_, _, hq⟩ := hpos h0
    have hlow : k * (b - 1) < 0 := mul_neg_of_pos_of_neg hk (by omega)
    omega
  · obtain ⟨hlow, hhigh, _⟩ := hneg h0
    constructor
    · intro hlt
      exact hhigh.trans (mul_le_mul_of_nonneg_left (by omega) hk.le)
    · intro hle
      have := lt_of_mul_lt_mul_left (hlow.trans_le hle) hk.le
      omega

/-! ### The threshold's move -/

section
variable {c : Config} (hn : 2 ≤ c.n) (hmode : c.divMode = .towardZero) {v th : Word}
include hn hmode

theorem nextThreshold_toInt_towardZero :
    (nextThreshold c v th).toInt =
      roundedQuotient .towardZero (8 * c.n * th.toInt + (v.toInt - th.toInt)) (8 * c.n) := by
  rw [nextThreshold_toInt c v th (by omega), thresholdAcc_eq, averagingWeight_cast, hmode]

/-- The same quotient seen from the other side of zero. -/
theorem nextThreshold_toInt_mirrored :
    (nextThreshold c v th).toInt =
      -roundedQuotient .towardZero (8 * c.n * -th.toInt + (th.toInt - v.toInt)) (8 * c.n) := by
  rw [nextThreshold_toInt_towardZero hn hmode, ← roundedQuotient_towardZero_neg]
  congr 1
  ring

/-- The dead zone above zero (R96 (b)). -/
theorem nextThreshold_eq_of_nonneg (hth : 0 ≤ th.toInt) (he : 0 ≤ v.toInt - th.toInt)
    (hek : v.toInt - th.toInt < 8 * c.n) : nextThreshold c v th = th := by
  apply BitVec.eq_of_toInt_eq
  rw [nextThreshold_toInt_towardZero hn hmode, roundedQuotient_eq_of_nonneg hth he hek]

/-- The dead zone below zero (R96 (b)). -/
theorem nextThreshold_eq_of_nonpos (hth : th.toInt ≤ 0) (hek : -(8 * (c.n : Int)) < v.toInt - th.toInt)
    (he : v.toInt - th.toInt ≤ 0) : nextThreshold c v th = th := by
  apply BitVec.eq_of_toInt_eq
  rw [nextThreshold_toInt_mirrored hn hmode, roundedQuotient_eq_of_nonneg (by omega) (by omega) (by omega), neg_neg]

/-- The pull down to zero (R96 (c)). -/
theorem nextThreshold_lt_of_pos (hth : 0 < th.toInt) (he : v.toInt < th.toInt) :
    (nextThreshold c v th).toInt < th.toInt := by
  rw [nextThreshold_toInt_towardZero hn hmode]
  exact roundedQuotient_lt _ (by omega) hth (by omega)

/-- The pull up to zero (R96 (c)). -/
theorem lt_nextThreshold_of_neg (hth : th.toInt < 0) (he : th.toInt < v.toInt) :
    th.toInt < (nextThreshold c v th).toInt := by
  rw [nextThreshold_toInt_mirrored hn hmode]
  exact lt_neg_of_lt_neg (roundedQuotient_lt _ (by omega) (by omega) (by omega))

/-- A sample above the old threshold stays above the new one, unless it is not positive and the old one is next to it
(R92). -/
theorem nextThreshold_lt_sample_iff (h : th.toInt < v.toInt) :
    (nextThreshold c v th).toInt < v.toInt ↔ 0 < v.toInt ∨ th.toInt < v.toInt - 1 := by
  have hk : 16 ≤ 8 * (c.n : Int) := by omega
  rw [nextThreshold_toInt_towardZero hn hmode]
  generalize 8 * (c.n : Int) = k at hk
  rcases lt_or_ge 0 v.toInt with hv | hv
  · have hacc : k * th.toInt + (v.toInt - th.toInt) < k * v.toInt := by nlinarith
    exact iff_of_true (roundedQuotient_lt _ (by omega) hv hacc) (.inl hv)
  · rw [roundedQuotient_lt_iff_of_nonpos (by omega) hv, or_iff_right (not_lt.2 hv)]
    constructor
    · intro hacc
      by_contra hge
      have hnext : th.toInt = v.toInt - 1 := by omega
      rw [hnext] at hacc
      linarith
    · intro hlt
      nlinarith

end

/-- Settles O15: the effect of `THR_UPDATE` is `nextThreshold`, which `nextThreshold_toInt` reads as the quotient. -/
theorem thresholdIsTheRoundedMean : Obligations.ThresholdIsTheRoundedMean := by
  intro s v hn
  refine ⟨thrUpdate v s, exec_eq_next.2 ⟨hn, rfl⟩, rfl, ?_⟩
  rw [thrUpdate_threshold, nextThreshold_toInt s.cfg v s.threshold (by omega), thresholdAcc, averagingWeight_cast]
  cases s.cfg.divMode <;> rfl

/-- Settles O16: `nextThreshold_between` of the sample and the register. -/
theorem thresholdStaysBetween : Obligations.ThresholdStaysBetween := by
  intro s t v hnext
  obtain ⟨hn, rfl⟩ := exec_eq_next.1 hnext
  exact nextThreshold_between hn v s.threshold

/-- Settles O17: the quotient toward zero on each side of zero. -/
theorem thresholdDeadZone : Obligations.ThresholdDeadZone := by
  intro s t v hmode hnext
  obtain ⟨hn, rfl⟩ := exec_eq_next.1 hnext
  exact ⟨nextThreshold_eq_of_nonneg hn hmode, nextThreshold_eq_of_nonpos hn hmode,
    fun hth he => Int.le_sub_one_of_lt (nextThreshold_lt_of_pos hn hmode hth (by omega)),
    fun hth he => Int.add_one_le_of_lt (lt_nextThreshold_of_neg hn hmode hth (by omega))⟩

/-- Settles O20: a sample not above the old threshold is not above the new one either (R89); one above it is decided by
`nextThreshold_lt_sample_iff`. -/
theorem oldThresholdSlicesDifferently : Obligations.OldThresholdSlicesDifferently := by
  intro s t v hmode hnext
  obtain ⟨hn, rfl⟩ := exec_eq_next.1 hnext
  change (_ ↔ ¬ (nextThreshold s.cfg v s.threshold).toInt < _) ↔ _
  rcases lt_or_ge s.threshold.toInt v.toInt with h | h
  · rw [nextThreshold_lt_sample_iff hn hmode h]
    omega
  · have hmin := (nextThreshold_between hn v s.threshold).1
    rw [min_eq_left h] at hmin
    omega

/-! ### The two-level signal -/

/-- Settles O21: the two-level lemma, and `SLICE` of the state it leaves. -/
theorem twoLevelSignalIsSlicedExactly : Obligations.TwoLevelSignalIsSlicedExactly := by
  intro s t a b ha ha' hlo hhi hnext
  obtain ⟨hn, rfl⟩ := exec_eq_next.1 hnext
  obtain ⟨hrange, hbit⟩ := nextThreshold_level hn ha ha' ⟨hlo, hhi⟩ b
  refine ⟨hrange, exec_eq_next.2 ⟨hn, ?_⟩⟩
  exact congrArg (fun bit => { thrUpdate (levelOf a b) s with bitTap := some bit }) hbit

/-! ### The counter, the comparison and the byte pair -/

theorem decimate_of_one {s : State} (h : s.decCnt = 1) :
    decimate s = { s with decCnt := s.cfg.n, boundary := true } := if_pos h

theorem decimate_of_ne_one {s : State} (h : s.decCnt ≠ 1) :
    decimate s = { s with decCnt := s.decCnt - 1, boundary := false } := if_neg h

/-- Settles O18: the two branches of R91; neither leaves `0`. -/
theorem decimateCountsDownAndReloads : Obligations.DecimateCountsDownAndReloads := by
  intro s hn hdec
  refine ⟨fun h => exec_eq_next.2 ⟨hn, decimate_of_one h⟩, fun h => exec_eq_next.2 ⟨hn, decimate_of_ne_one h⟩, ?_⟩
  intro t hnext
  obtain ⟨_, rfl⟩ := exec_eq_next.1 hnext
  change (decimate s).decCnt ≠ 0
  rw [decimate_decCnt]
  split <;> omega

theorem slicedBit_of_lt {v th : Word} (h : th.toInt < v.toInt) : slicedBit v th = 1#1 := by
  simp [slicedBit, h]

theorem slicedBit_of_le {v th : Word} (h : v.toInt ≤ th.toInt) : slicedBit v th = 0#1 := by
  simp [slicedBit, not_lt.2 h]

theorem exec_slice {s : State} (hn : 2 ≤ s.cfg.n) {v : Word} {b : Bit} (h : slicedBit v s.threshold = b) :
    exec (.slice v) s = .next { s with bitTap := some b } :=
  exec_eq_next.2 ⟨hn, h ▸ rfl⟩

/-- Settles O19: equality and the least sample are cases of a sample not above the threshold. -/
theorem sliceComparesSignedAndStrict : Obligations.SliceComparesSignedAndStrict := by
  intro s v hn
  refine ⟨fun h => exec_slice hn (slicedBit_of_lt h), fun h => exec_slice hn (slicedBit_of_le h), ?_⟩
  rintro (rfl | rfl)
  · exact exec_slice hn (slicedBit_of_le le_rfl)
  · exact exec_slice hn (slicedBit_of_le (BitVec.le_toInt s.threshold))

/-- Settles O23: the two cases of `BYTE_IN`. -/
theorem byteInPairsLittleEndian : Obligations.ByteInPairsLittleEndian := by
  intro s b hn
  rcases byteIn_cases b (beginStep s) with ⟨hlo, heffect⟩ | ⟨hlo, heffect⟩
  · exact ⟨fun _ => exec_eq_next.2 ⟨hn, heffect⟩, fun h => absurd (hlo.symm.trans h) Bool.false_ne_true⟩
  · refine ⟨fun h => absurd (h.symm.trans hlo) Bool.false_ne_true, fun _ => ?_⟩
    rw [exec_eq_configured, exec_eq_configured]
    exact congrArg (configured s) heffect

end Sys2Proof.Machine
end

section
/-! The Sync/Framer: a match and only a match starts a session, the assembler's operations say when one ends, a byte's
bits reach the assembler as that byte, and how soon a match can come (42_sync_framer.md R98 to R111). -/

namespace Sys2Proof.Machine

/-! ### Acquiring sync -/

theorem isSyncWord_iff {w : Word} : isSyncWord w = true ↔ w = 0x2DAA#16 ∨ w = 0xD255#16 := by
  simp [isSyncWord, syncWord, syncWordInv]

/-- Settles O28: the two cases of `SYNC_SHIFT`, each ruled out by the other's register. -/
theorem syncShiftMatchesExactly : Obligations.SyncShiftMatchesExactly := by
  intro s b hn reg
  rcases syncShift_cases b s with ⟨hmatch, heffect⟩ | ⟨hmiss, heffect⟩
  · refine ⟨fun _ => exec_eq_next.2 ⟨hn, heffect⟩, fun hne hneInv => ?_⟩
    exact absurd (isSyncWord_iff.1 hmatch) (not_or.2 ⟨hne, hneInv⟩)
  · refine ⟨fun hsync => ?_, fun _ _ => exec_eq_next.2 ⟨hn, heffect⟩⟩
    exact absurd (hmiss.symm.trans (isSyncWord_iff.2 hsync)) Bool.false_ne_true

/-- The first 15 bits of a pattern with no early match are shifted in and nothing else happens (R100, R111). -/
theorem receiveBits_take_of_noEarlyMatch {s : State} {w : Word} (hf : s.fstate = .searching)
    (hearly : NoEarlyMatch s.syncReg w) :
    receiveBits ((msbFirst w).take 15) s = { s with syncReg := syncAfter s.syncReg ((msbFirst w).take 15) } := by
  refine receiveBits_searching hf fun k hk hk' => ?_
  have hlt : k ≤ 15 := hk'.trans (List.length_take_le _ _)
  rw [List.take_take, min_eq_left hlt]
  exact hearly k hk (by omega)

/-- Settles O32: the pattern's front only moves `sync_reg`, and its last bit acquires. -/
theorem syncPatternAcquires : Obligations.SyncPatternAcquires := by
  intro s w hn hf hearly hw
  have hfront := receiveBits_take_of_noEarlyMatch (s := beginStep s) hf hearly
  have hacquired := receiveWord_syncWord (s := beginStep s) hf (isSyncWord_iff.2 hw) hearly
  refine ⟨by rw [hfront]; exact hf, exec_eq_next.2 ⟨hn, ?_⟩⟩
  rcases hw with rfl | rfl <;> exact hacquired

/-! ### The accumulator's seed -/

/-- The operations that can neither start a session nor reset the block (R102). -/
def seedsNothing : Instr → Bool
  | .idle | .thrUpdate _ | .decimate | .slice _ | .byteShift _ | .asmLength _ | .asmPayload _ | .asmCrcHi _
  | .asmCrcLo _ | .crcUpdate _ _ | .sessionEnd => true
  | .reset | .sessionInit | .syncShift _ | .sample _ | .byteIn _ | .wireSyncWord | .wireSyncWordInv | .wireLen _
  | .wireLenOversize | .wirePayloadByte _ | .wireCrcHi _ | .wireCrcLo _ | .wireSample _ => false

theorem asmLength_crcAcc (d : Byte) (s : State) : (asmLength d s).crcAcc = crcByte s.crcAcc d := by
  rcases asmLength_cases d s with ⟨_, e⟩ | ⟨_, e⟩ <;> rw [e]

theorem asmCrcLo_crcAcc (d : Byte) (s : State) : (asmCrcLo d s).crcAcc = s.crcAcc := by
  rcases asmCrcLo_cases d s with ⟨_, e⟩ | ⟨_, e⟩ <;> rw [e]

theorem effect_crcAcc_of_seedsNothing {i : Instr} (hi : seedsNothing i = true) (s : State) :
    (effect i s).crcAcc = s.crcAcc ∨ ∃ d, (effect i s).crcAcc = crcByte s.crcAcc d := by
  cases i with
  | idle | thrUpdate | slice | crcUpdate | sessionEnd | asmCrcHi => exact .inl rfl
  | decimate => exact .inl (decimate_crcAcc s)
  | asmCrcLo d => exact .inl (asmCrcLo_crcAcc d s)
  | asmLength d => exact .inr ⟨d, asmLength_crcAcc d s⟩
  | asmPayload d => exact .inr ⟨d, congrArg State.crcAcc (asmPayload_eq d s)⟩
  | byteShift b =>
    have hcrc := byteShift_crcAcc b s
    split at hcrc
    · exact .inr ⟨_, hcrc⟩
    · exact .inl hcrc
  | _ => cases hi

/-- Settles O29: `SESSION_INIT`'s effect is its four writes, a `SYNC_SHIFT` that leaves `SEARCHING` has made them, and no
other operation listed seeds the accumulator. -/
theorem sessionInitWritesFourRegisters : Obligations.SessionInitWritesFourRegisters := by
  refine ⟨fun s hn => exec_eq_next.2 ⟨hn, rfl⟩, fun s t b hf hnext hsynced => ?_, fun i s t hnext hop => ?_⟩
  · obtain ⟨_, rfl⟩ := exec_eq_next.1 hnext
    change (syncShift b s).fstate = .synced at hsynced
    change (syncShift b s).astate = _ ∧ (syncShift b s).offset = _ ∧ (syncShift b s).crcAcc = _ ∧
      (syncShift b s).rxCrc = _
    rcases syncShift_cases b s with ⟨_, e⟩ | ⟨_, e⟩ <;> rw [e] at hsynced ⊢
    · exact ⟨rfl, rfl, rfl, rfl⟩
    · exact absurd (hf.symm.trans hsynced) (by decide)
  · obtain ⟨_, rfl⟩ := exec_eq_next.1 hnext
    have hi : seedsNothing i = true := by
      cases i with
      | reset | sessionInit | syncShift | sample | byteIn | wireSyncWord | wireSyncWordInv | wireLen | wireLenOversize
      | wirePayloadByte | wireCrcHi | wireCrcLo | wireSample => exact hop.elim
      | _ => rfl
    exact effect_crcAcc_of_seedsNothing hi s

/-! ### Ending a session -/

theorem asmLength_ended_iff (d : Byte) (s : State) : (asmLength d s).ended = true ↔ d = 0xFF#8 := by
  rcases asmLength_cases d s with ⟨hd, e⟩ | ⟨hd, e⟩ <;> rw [e] <;> simp [hd]

theorem asmPayload_ended (d : Byte) (s : State) : (asmPayload d s).ended = false := rfl

theorem asmCrcLo_ended (d : Byte) (s : State) : (asmCrcLo d s).ended = true := by
  rcases asmCrcLo_cases d s with ⟨_, e⟩ | ⟨_, e⟩ <;> rw [e]

theorem asmCrcLo_endCode (d : Byte) (s : State) :
    (asmCrcLo d s).endCode = .accepted ∨ (asmCrcLo d s).endCode = .rejectedCrc := by
  rcases asmCrcLo_cases d s with ⟨_, e⟩ | ⟨_, e⟩ <;> rw [e] <;> simp

/-- Settles O31: which of the assembler's operations end a session is said per operation above. -/
theorem sessionEndWritesFstateOnly : Obligations.SessionEndWritesFstateOnly := by
  refine ⟨fun s hn => exec_eq_next.2 ⟨hn, rfl⟩, fun s t d => ⟨?_, ?_, ?_, ?_⟩, fun s t b => ?_⟩ <;>
    intro hnext <;> obtain ⟨_, rfl⟩ := exec_eq_next.1 hnext
  · refine ⟨asmLength_ended_iff d s, ?_⟩
    rintro rfl
    exact congrArg State.endCode (asmLength_oversize s)
  · exact asmPayload_ended d s
  · exact asmCrcHi_ended d s
  · exact ⟨asmCrcLo_ended d s, asmCrcLo_endCode d s⟩
  · exact (byteShift_frame b s).2

/-! ### Delivering a byte -/

/-- `BYTE` is the operation `astate` selects (R113, R132). -/
theorem deliverByte_eq_effect (d : Byte) (s : State) :
    deliverByte d s = effect (assemblerOperation s.astate d) s := by
  rcases deliverByte_cases d s with ⟨ha, e⟩ | ⟨ha, e⟩ | ⟨ha, e⟩ | ⟨ha, e⟩ <;> rw [e, ha] <;> rfl

/-- `if ended: call SESSION_END()` of R104, as instructions. -/
theorem exec_sessionEnd_if_ended {s : State} (hn : 2 ≤ s.cfg.n) :
    (if s.ended then exec .sessionEnd s else .next s) = .next (endIfEnded s) := by
  rw [exec_eq_next.2 ⟨hn, rfl⟩, endIfEnded]
  split <;> rfl

/-- Settles O30: off the eighth bit the counter moves; on it the byte goes to the operation `astate` selects. -/
theorem byteShiftDeliversEveryEighthBit : Obligations.ByteShiftDeliversEveryEighthBit := by
  intro s b hn acc
  refine ⟨fun hmid => exec_eq_next.2 ⟨hn, byteShift_mid hmid b⟩, fun hlast => ?_⟩
  have hexec := (exec_eq_next (i := assemblerOperation s.astate acc)
    (s := { s with byteAcc := acc, bitCnt := 8#4 })).2 ⟨hn, rfl⟩
  rw [hexec, andThen_next, exec_sessionEnd_if_ended (by rwa [effect_cfg])]
  exact exec_eq_next.2 ⟨hn, (byteShift_last hlast b).trans (congrArg endIfEnded (deliverByte_eq_effect acc _))⟩

/-- A byte received at a byte boundary is the operation `astate` selects, and the session's end if that ended it. -/
theorem receiveByte_eq_effect {s : State} {a : AState} (hf : s.fstate = .synced) (hb : s.bitCnt = 8#4)
    (ha : s.astate = a) (d : Byte) :
    receiveByte d s = endIfEnded (effect (assemblerOperation a d) { s with byteAcc := d }) := by
  rw [receiveByte_aligned hf hb, deliverByte_eq_effect, ← ha]

/-- Settles O41: at the boundary each field's pattern is its operation's effect, and `ended` says whether the session
ends. -/
theorem wireFieldsAreDeliveredWhole : Obligations.WireFieldsAreDeliveredWhole := by
  intro s d hn hf hb got
  refine ⟨fun ha hd => ?_, fun ha hd => ?_, fun ha => ?_, fun ha => ?_, fun ha => ?_⟩ <;>
    have hbyte := receiveByte_eq_effect (s := beginStep s) hf hb ha d <;>
    refine ⟨_, exec_eq_next.2 ⟨hn, rfl⟩, exec_eq_next.2 ⟨hn, ?_⟩⟩
  · exact hbyte.trans (endIfEnded_of_not_ended (Bool.eq_false_iff.2 ((asmLength_ended_iff d got).not.2 hd)))
  · subst hd
    exact hbyte.trans (endIfEnded_of_ended ((asmLength_ended_iff _ got).2 rfl))
  · exact hbyte.trans (endIfEnded_of_not_ended (asmPayload_ended d got))
  · exact hbyte.trans (endIfEnded_of_not_ended (asmCrcHi_ended d got))
  · exact hbyte.trans (endIfEnded_of_ended (asmCrcLo_ended d got))

/-! ### The sync register in a session -/

theorem sampleStep_syncReg_of_synced {s : State} (hf : s.fstate = .synced) (v : Word) :
    (sampleStep v s).syncReg = s.syncReg := by
  rcases sampleStep_cases v s with ⟨_, f, _⟩ | ⟨_, b, u, f, _, e⟩
  · exact f.syncReg
  · rw [e, receiveBit_synced (f.fstate.trans hf), (byteShift_frame b u).2, f.syncReg]

theorem byteIn_syncReg_of_synced {s : State} (hf : s.fstate = .synced) (b : Byte) :
    (byteIn b s).syncReg = s.syncReg := by
  rcases byteIn_cases b s with ⟨_, e⟩ | ⟨_, e⟩ <;> rw [e]
  exact sampleStep_syncReg_of_synced (s := { s with haveLo := false }) hf _

/-- Settles O33: `BYTE_SHIFT` leaves `sync_reg`, and the two steps give a synced framer's bit to nothing else. -/
theorem syncRegisterIsFrozenWhileSynced : Obligations.SyncRegisterIsFrozenWhileSynced := by
  intro s t hf
  refine ⟨fun v hnext => ?_, fun b hnext => ?_, fun b hnext => ?_⟩ <;> obtain ⟨_, rfl⟩ := exec_eq_next.1 hnext
  · exact sampleStep_syncReg_of_synced (s := beginStep s) hf v
  · exact byteIn_syncReg_of_synced (s := beginStep s) hf b
  · exact (byteShift_frame b s).2

/-! ### The earliest match -/

/-- After `k` bits the register's low bits stand `k` places up (R100). -/
theorem syncAfter_getLsbD (reg : Word) (bs : List Bit) (i : Nat) :
    (syncAfter reg bs).getLsbD (bs.length + i) = (decide (bs.length + i < 16) && reg.getLsbD i) := by
  induction bs generalizing reg i with
  | nil => simpa [syncAfter] using BitVec.lt_of_getLsbD
  | cons b bs ih =>
    have hrange : (decide (bs.length + (i + 1) < 16) && decide (i < 15)) = decide (bs.length + (i + 1) < 16) := by
      rw [← Bool.decide_and]
      exact decide_eq_decide.2 (by omega)
    have hindex : (b :: bs).length + i = bs.length + (i + 1) := by rw [List.length_cons]; omega
    rw [hindex, ← hrange, Bool.and_assoc, ← shiftIntoSync_getLsbD_succ reg b]
    exact ih (shiftIntoSync reg b) (i + 1)

theorem syncAfter_ushiftRight (reg : Word) (bs : List Bit) :
    syncAfter reg bs >>> bs.length = reg <<< bs.length >>> bs.length := by
  refine BitVec.eq_of_getLsbD_eq fun i _ => ?_
  rw [BitVec.getLsbD_ushiftRight, BitVec.getLsbD_ushiftRight, BitVec.getLsbD_shiftLeft, syncAfter_getLsbD]
  simp

/-- Some `k` bits could complete a sync word from `reg`: one begins with the bits of `reg` still there after `k` more
(`isSyncWord_syncAfter_eq_false`). -/
def mayMatchAfter (reg : Word) (k : Nat) : Bool :=
  [syncWord, syncWordInv].any fun w => w >>> k == reg <<< k >>> k

theorem isSyncWord_syncAfter_eq_false {reg : Word} {bs : List Bit} (h : mayMatchAfter reg bs.length = false) :
    isSyncWord (syncAfter reg bs) = false := by
  by_contra hmatch
  have hshift := syncAfter_ushiftRight reg bs
  rcases isSyncWord_iff.1 (by simpa using hmatch) with hw | hw <;> rw [hw] at hshift <;>
    simp [mayMatchAfter, syncWord, syncWordInv, hshift] at h

theorem mayMatchAfter_cleared : ∀ k ≤ 13, 1 ≤ k → mayMatchAfter 0x0000#16 k = false := by decide

theorem mayMatchAfter_syncWord :
    ∀ k ≤ 14, 1 ≤ k → mayMatchAfter 0x2DAA#16 k = false ∧ mayMatchAfter 0xD255#16 k = false := by decide

/-- Settles O34: what is left of `0x0000`, or of a stale sync word, begins neither sync word. -/
theorem earliestMatches : Obligations.EarliestMatches := by
  intro s bs hf hreg
  refine receiveBits_searching hf fun k hk hk' => isSyncWord_syncAfter_eq_false ?_
  rw [List.length_take, min_eq_left hk']
  rcases hreg with ⟨hzero, hlen⟩ | ⟨hstale | hstale, hlen⟩
  · rw [hzero]; exact mayMatchAfter_cleared k (by omega) hk
  · rw [hstale]; exact (mayMatchAfter_syncWord k (by omega) hk).1
  · rw [hstale]; exact (mayMatchAfter_syncWord k (by omega) hk).2

end Sys2Proof.Machine
end

section
/-! The length of a session: every bit of one brings its end nearer, and no session is longer than 2056 bits
(42_sync_framer.md R110; 43_packet_assembler.md R123; 44_pipeline_step.md R138). -/

namespace Sys2Proof.Machine

/-- The bytes that can still follow the one in progress: after the length byte at most 254 payload bytes and the
checksum's two (R123). -/
def bytesToFollow (s : State) : Nat :=
  match s.astate with
  | .awaitLength => 256
  | .readPayload => s.length.toNat - s.offset.toNat + 1
  | .readCrcHi => 1
  | .readCrcLo => 0

/-- An upper bound on the bits to the end of the session, none while `SEARCHING` (R110). -/
def bitsToSessionEnd (s : State) : Nat :=
  match s.fstate with
  | .searching => 0
  | .synced => s.bitCnt.toNat + 8 * bytesToFollow s

theorem bitsToSessionEnd_searching {s : State} (hf : s.fstate = .searching) : bitsToSessionEnd s = 0 := by
  simp [bitsToSessionEnd, hf]

theorem bitsToSessionEnd_synced {s : State} (hf : s.fstate = .synced) :
    bitsToSessionEnd s = s.bitCnt.toNat + 8 * bytesToFollow s := by
  simp [bitsToSessionEnd, hf]

theorem bytesToFollow_le {s : State} (h : s.astate ≠ .awaitLength → s.length.toNat ≤ maxLen) :
    bytesToFollow s ≤ 256 := by
  unfold bytesToFollow
  cases ha : s.astate <;> simp [ha, maxLen] at h ⊢
  omega

theorem bitsToSessionEnd_le {s : State} (h : BlockInvariant s) : bitsToSessionEnd s ≤ 2056 := by
  have hcnt := h.bitCnt_le
  have hbytes := bytesToFollow_le h.length_le
  cases hf : s.fstate with
  | searching => simp [bitsToSessionEnd_searching hf]
  | synced => rw [bitsToSessionEnd_synced hf]; omega

/-- A byte ends the session, or leaves fewer to follow (R114 to R117). -/
theorem bytesToFollow_deliverByte {s : State} (h : s.astate = .readPayload → s.offset.toNat < s.length.toNat)
    (d : Byte) : (deliverByte d s).ended = true ∨ bytesToFollow (deliverByte d s) < bytesToFollow s := by
  rcases deliverByte_cases d s with ⟨ha, e⟩ | ⟨ha, e⟩ | ⟨ha, e⟩ | ⟨_, e⟩ <;> rw [e]
  · rcases asmLength_cases d s with ⟨hd, e⟩ | ⟨_, e⟩ <;> rw [e]
    · refine .inr ?_
      have hle : d.toNat ≤ 254 := by bv_omega
      by_cases h0 : d = 0#8
      · simp [bytesToFollow, ha, h0]
      · simp only [bytesToFollow, ha, if_neg h0]
        omega
    · exact .inl rfl
  · have hlt := h ha
    have hsucc : (s.offset + 1).toNat = s.offset.toNat + 1 := by bv_omega
    refine .inr ?_
    rw [asmPayload_eq]
    by_cases hlast : s.offset + 1 = s.length
    · simp only [bytesToFollow, ha, if_pos hlast]
      omega
    · simp only [bytesToFollow, ha, if_neg hlast, hsucc]
      omega
  · exact .inr (by simp [bytesToFollow, ha, asmCrcHi])
  · exact .inl (asmCrcLo_ended d s)

/-- The last bit of a byte ends the session, or the bytes to follow pay for it. -/
theorem bitsToSessionEnd_endIfEnded {s : State} {n : Nat} (hb : s.bitCnt = 8#4)
    (h : s.ended = true ∨ bytesToFollow s < n) : bitsToSessionEnd (endIfEnded s) ≤ 8 * n := by
  cases hended : s.ended with
  | true => simp [endIfEnded_of_ended hended, bitsToSessionEnd]
  | false =>
    have hlt : bytesToFollow s < n := by simpa [hended] using h
    rw [endIfEnded_of_not_ended hended]
    cases hf : s.fstate with
    | searching => simp [bitsToSessionEnd_searching hf]
    | synced =>
      rw [bitsToSessionEnd_synced hf, hb]
      simp only [BitVec.reduceToNat]
      omega

theorem offset_lt_length_of_readPayload {s : State} (h : BlockInvariant s) (hf : s.fstate = .synced)
    (ha : s.astate = .readPayload) : s.offset.toNat < s.length.toNat := by
  have hranges := h.ranges hf
  simp only [SessionRanges, ha] at hranges
  obtain ⟨_, _, hlt, _⟩ := hranges
  exact hlt

/-- In a session every bit brings its end nearer. -/
theorem bitsToSessionEnd_receiveBit {s : State} (h : BlockInvariant s) (hf : s.fstate = .synced) (b : Bit) :
    bitsToSessionEnd (receiveBit b s) < bitsToSessionEnd s := by
  have hpos := h.bitCnt_pos
  have hpayload := offset_lt_length_of_readPayload h hf
  rw [receiveBit_synced hf, bitsToSessionEnd_synced hf]
  by_cases hb : s.bitCnt = 1#4
  · have hcnt := byteShift_bitCnt_of_last hb b
    rw [byteShift_last hb] at hcnt ⊢
    rw [endIfEnded_bitCnt] at hcnt
    have hle := bitsToSessionEnd_endIfEnded hcnt (bytesToFollow_deliverByte (by exact hpayload) _)
    exact Nat.lt_of_le_of_lt hle (Nat.lt_add_of_pos_left hpos)
  · rw [byteShift_mid hb, bitsToSessionEnd_synced (by exact hf)]
    exact Nat.add_lt_add_right (by simp only; bv_omega) _

/-- As many bits as the bound says reach a searching framer. -/
theorem exists_searching_of_bitsToSessionEnd_le {bs : List Bit} {s : State} (h : BlockInvariant s)
    (hle : bitsToSessionEnd s ≤ bs.length) :
    ∃ k, k ≤ bs.length ∧ (receiveBits (bs.take k) s).fstate = .searching := by
  induction bs generalizing s with
  | nil =>
    refine ⟨0, le_rfl, ?_⟩
    cases hf : s.fstate with
    | searching => simpa using hf
    | synced =>
      have hpos := h.bitCnt_pos
      rw [bitsToSessionEnd_synced hf, List.length_nil] at hle
      omega
  | cons b bs ih =>
    cases hf : s.fstate with
    | searching => exact ⟨0, Nat.zero_le _, by simpa using hf⟩
    | synced =>
      have hnear := bitsToSessionEnd_receiveBit h hf b
      rw [List.length_cons] at hle
      obtain ⟨k, hk, hsearching⟩ := ih (blockInvariant_receiveBit h b) (by omega)
      exact ⟨k + 1, Nat.succ_le_succ hk, hsearching⟩

/-- Settles O58: the bound on a session's bits is at most 2056. -/
theorem searchingWithin2056Bits : Obligations.SearchingWithin2056Bits := by
  intro s bs h hlen
  rw [← hlen]
  exact exists_searching_of_bitsToSessionEnd_le h (hlen ▸ bitsToSessionEnd_le h)

end Sys2Proof.Machine
end

section
/-! The Packet Assembler: each operation's whole effect, and a frame given as instructions, whose verdict is that of the
two checksums (43_packet_assembler.md R114 to R119, R126). -/

namespace Sys2Proof.Machine

/-! ### The operations -/

/-- Settles O35: `ASM_LENGTH` on a legal length and on 255. -/
theorem lengthByteIsAcceptedOrOversize : Obligations.LengthByteIsAcceptedOrOversize := by
  intro s d hn
  refine ⟨fun hd => exec_eq_next.2 ⟨hn, asmLength_legal hd s⟩, fun hd => ?_⟩
  subst hd
  exact exec_eq_next.2 ⟨hn, asmLength_oversize s⟩

/-- Settles O37: inside the buffer `ASM_PAYLOAD` is one write at `offset`, which the buffer's laws read back. -/
theorem payloadByteIsStoredAtOffset : Obligations.PayloadByteIsStoredAtOffset := by
  intro s d hn hoff
  refine ⟨_, exec_eq_next.2 ⟨hn, asmPayload_inside hoff d⟩, rfl, ?_, fun a ha => ?_⟩
  · rw [bufRead, Memory.read_write_same, Option.getD_some]
  · rw [bufRead, Memory.read_write_other _ _ ha, bufRead]

/-- Settles O39: the effect is the three writes. -/
theorem crcHighByteIsHeld : Obligations.CrcHighByteIsHeld :=
  fun _ _ hn => exec_eq_next.2 ⟨hn, rfl⟩

/-- Settles O40: `ASM_CRC_LO` on equal and on unequal checksums. -/
theorem checksumIsComplementedAndCompared : Obligations.ChecksumIsComplementedAndCompared := by
  intro s d hn rx
  refine ⟨fun heq => exec_eq_next.2 ⟨hn, ?_⟩, fun hne => exec_eq_next.2 ⟨hn, ?_⟩⟩
  · rw [heq]
    exact asmCrcLo_accept (s := s) (d := d) heq
  · exact asmCrcLo_reject (s := s) (d := d) hne

/-! ### A frame as instructions -/

theorem SessionStart.beginStep {s : State} (h : SessionStart s) : SessionStart (beginStep s) :=
  ⟨h.fstate, h.bitCnt, h.astate, h.offset, h.crcAcc, h.rxCrc⟩

theorem FrameTaken.beginStep {s : State} {len : Byte} {ds : List Byte} (h : FrameTaken s len ds) :
    FrameTaken (beginStep s) len ds :=
  ⟨h.fstate, h.bitCnt, h.legal, h.length, h.offset, h.astate, h.crcAcc, h.stored⟩

/-- The payload's wire patterns are taken one after another (R115). -/
theorem foldl_effect_wirePayloadByte {s : State} {len : Byte} {ds es : List Byte} (h : FrameTaken s len ds)
    (hlen : (ds ++ es).length ≤ len.toNat) :
    FrameTaken ((es.map Instr.wirePayloadByte).foldl (fun s i => effect i s) s) len (ds ++ es) := by
  induction es generalizing s ds with
  | nil => exact (List.append_nil ds).symm ▸ h
  | cons e es ih =>
    rw [List.append_cons] at hlen ⊢
    have hlt : ds.length < len.toNat := by
      simp only [List.length_append, List.length_singleton] at hlen
      omega
    obtain ⟨htaken, _⟩ := receiveByte_payload h.beginStep hlt e
    exact ih htaken hlen

/-- The checksum's second byte ends the session with the mismatch, where the checksum is not the accumulator's (R117,
R119). -/
theorem receiveByte_crcLo_reject {s : State} (hf : s.fstate = .synced) (hb : s.bitCnt = 8#4)
    (ha : s.astate = .readCrcLo) {d : Byte} (hne : complementChecksum (checksumOfBytes s.rxCrc d) ≠ s.crcAcc) :
    receiveByte d s =
      { s with
        byteAcc := d, rxCrc := complementChecksum (checksumOfBytes s.rxCrc d), ended := true
        endCode := .rejectedCrc, fstate := .searching
        events := s.events ++
          if s.cfg.verbose then [.crcMismatch (complementChecksum (checksumOfBytes s.rxCrc d)) s.crcAcc] else [] } := by
  rw [receiveByte_aligned hf hb, deliverByte, ha]
  simp only
  rw [asmCrcLo_reject (by exact hne), endIfEnded_of_ended rfl]

theorem foldl_effect_cfg (is : List Instr) (s : State) : (is.foldl (fun s i => effect i s) s).cfg = s.cfg := by
  induction is generalizing s with
  | nil => rfl
  | cons i is ih => exact (ih _).trans (effect_cfg i s)

/-- A frame completes: its length byte and payload are taken, and the two bytes of the checksum come after them (R61,
R113). -/
theorem execAll_frameInstrs {s : State} (hn : 2 ≤ s.cfg.n) (h : SessionStart s) {len : Byte} {payload : List Byte}
    (hlen : payload.length = len.toNat) (hlegal : len.toNat ≤ maxLen) (hi lo : Byte) :
    ∃ u, FrameTaken u len payload ∧ u.cfg = s.cfg ∧
      execAll (frameInstrs len payload hi lo) s = .next (effect (.wireCrcLo lo) (effect (.wireCrcHi hi) u)) := by
  obtain ⟨htaken, _⟩ := receiveByte_length h.beginStep hlegal
  refine ⟨_, foldl_effect_wirePayloadByte htaken (es := payload) hlen.le, ?_, ?_⟩
  · exact (foldl_effect_cfg _ _).trans (effect_cfg (.wireLen len) s)
  · rw [execAll_eq_foldl_effect _ hn, frameInstrs, List.cons_append, List.foldl_cons, List.foldl_append]
    rfl

/-- The checksum's bytes after a whole payload are the held high byte, and the low one on it (R116, R117). -/
theorem effect_checksum_eq {u : State} {len : Byte} {ds : List Byte} (h : FrameTaken u len ds)
    (hfull : ds.length = len.toNat) (hi lo : Byte) :
    effect (.wireCrcLo lo) (effect (.wireCrcHi hi) u) =
      receiveByte lo { beginStep u with byteAcc := hi, rxCrc := hi ++ 0x00#8, astate := .readCrcLo } := by
  have ha : u.astate = .readCrcHi := by rw [h.astate, if_pos hfull]
  have hhi := receiveByte_crcHi h.beginStep.fstate h.beginStep.bitCnt ha hi
  change receiveByte lo (Machine.beginStep (receiveByte hi (Machine.beginStep u))) = _
  rw [hhi]
  rfl

theorem checksumOfBytes_held (hi lo : Byte) : checksumOfBytes (hi ++ 0x00#8) lo = hi ++ lo := by
  rw [checksumOfBytes, BitVec.extractLsb'_append_eq_left]

/-- The accumulator's checksum after a whole payload ends the session with its `PACKET` (R118). -/
theorem effect_checksum_accept {u : State} {len : Byte} {ds : List Byte} (h : FrameTaken u len ds)
    (hfull : ds.length = len.toNat) {hi lo : Byte} (heq : complementChecksum (hi ++ lo) = u.crcAcc) :
    let t := effect (.wireCrcLo lo) (effect (.wireCrcHi hi) u)
    t.events = [.packet len ds] ∧ t.endCode = .accepted ∧ t.fstate = .searching := by
  have hpayload : payloadPrefix u u.length.toNat = ds := by rw [h.length, ← hfull]; exact h.stored
  rw [← checksumOfBytes_held] at heq
  rw [effect_checksum_eq h hfull, receiveByte_crcLo_accept]
  · refine ⟨?_, rfl, rfl⟩
    rw [← h.length, ← hpayload]
    rfl
  · exact h.fstate
  · exact h.bitCnt
  · rfl
  · exact heq

/-- Any other checksum ends it with the mismatch (R119). -/
theorem effect_checksum_reject {u : State} {len : Byte} {ds : List Byte} (h : FrameTaken u len ds)
    (hfull : ds.length = len.toNat) {hi lo : Byte} (hne : complementChecksum (hi ++ lo) ≠ u.crcAcc) :
    let t := effect (.wireCrcLo lo) (effect (.wireCrcHi hi) u)
    t.endCode = .rejectedCrc ∧ t.fstate = .searching ∧
      t.events = if u.cfg.verbose then [.crcMismatch (complementChecksum (hi ++ lo)) u.crcAcc] else [] := by
  rw [← checksumOfBytes_held] at hne ⊢
  rw [effect_checksum_eq h hfull, receiveByte_crcLo_reject]
  · exact ⟨rfl, rfl, rfl⟩
  · exact h.fstate
  · exact h.bitCnt
  · rfl
  · exact hne

/-- Settles O42: the checksum of R63 complemented is the accumulator after the payload. -/
theorem frameRoundTrip : Obligations.FrameRoundTrip := by
  intro s payload hn h hlegal len c
  have hlen : payload.length = len.toNat := by simp only [len, BitVec.toNat_ofNat]; omega
  obtain ⟨u, htaken, hcfg, hexec⟩ :=
    execAll_frameInstrs hn h hlen (hlen ▸ hlegal) (c.extractLsb' 8 8) (c.extractLsb' 0 8)
  refine ⟨_, hexec, effect_checksum_accept htaken hlen ?_⟩
  rw [halves_append, htaken.crcAcc, hcfg]
  exact complementChecksum_involutive _

/-- Settles O43: the received checksum complemented is the CRC of the payload with the other byte, which is not the
accumulator's. -/
theorem oneWrongPayloadByteIsRejected : Obligations.OneWrongPayloadByteIsRejected := by
  intro s front back d e hn h hlegal hde len c
  have hlen : (front ++ d :: back).length = len.toNat := by simp only [len, BitVec.toNat_ofNat]; omega
  obtain ⟨u, htaken, hcfg, hexec⟩ :=
    execAll_frameInstrs hn h hlen (hlen ▸ hlegal) (c.extractLsb' 8 8) (c.extractLsb' 0 8)
  have hreceived : complementChecksum c = crcSeq s.cfg.crcSeed (len :: (front ++ e :: back)) :=
    complementChecksum_involutive _
  have hne : complementChecksum (c.extractLsb' 8 8 ++ c.extractLsb' 0 8) ≠ u.crcAcc := by
    rw [halves_append, hreceived, htaken.crcAcc, hcfg]
    exact oneWrongByteChangesTheCrc s.cfg.crcSeed (len :: front) back e d hde.symm
  obtain ⟨hcode, hstate, hevents⟩ := effect_checksum_reject htaken hlen hne
  exact ⟨_, _, _, hexec, hcode, hstate, hne, hcfg ▸ hevents⟩

end Sys2Proof.Machine
end

section
/-! The composed step: it is the decoded instruction and always completes; `RESET`, `IDLE` and a sample off a boundary as
whole next states, `SAMPLE` through its operations, and two bytes as the sample they encode (44_pipeline_step.md R127 to
R130, R134; 20_memory.md R41, R42 for the payload store that has no address). -/

namespace Sys2Proof.Machine

/-! ### Decoding and totality -/

/-- Settles O4: the bytes of the step decode to the fetched instruction, so to no other. -/
theorem stepRunsDecodedInstruction : Obligations.StepRunsDecodedInstruction := by
  intro s i rest hdecode
  obtain ⟨_, hfetch⟩ := decode_fetchImage s
  cases hfetch.symm.trans hdecode
  rfl

theorem exec_completes (i : Instr) {s : State} (hn : 2 ≤ s.cfg.n) : ∃ t, exec i s = .next t :=
  ⟨effect i s, exec_eq_next.2 ⟨hn, rfl⟩⟩

/-- Settles O55: an instruction's one check is that of `N`, and taking the input leaves the configuration. -/
theorem noStepStops : Obligations.NoStepStops :=
  ⟨fun s hn => exec_completes (fetch s) (s := consumeInput s) hn, fun i _ hn => exec_completes i hn⟩

/-! ### Whole next states -/

/-- Settles O9: the effect is the table of R37. -/
theorem resetLoadsTheResetTable : Obligations.ResetLoadsTheResetTable :=
  fun _ hn => exec_eq_next.2 ⟨hn, rfl⟩

/-- Settles O11: the effect is a step's beginning and nothing after it. -/
theorem idleChangesNothing : Obligations.IdleChangesNothing :=
  fun _ hn => exec_eq_next.2 ⟨hn, rfl⟩

/-- Settles O8: with `dec_cnt ≥ 2` the sample step is its case off a boundary. -/
theorem nonBoundarySampleTouchesSlicerOnly : Obligations.NonBoundarySampleTouchesSlicerOnly := by
  intro s v hn hdec
  have hoff : (beginStep s).decCnt ≠ 1 := by rw [beginStep_decCnt]; omega
  exact exec_eq_next.2 ⟨hn, sampleStep_off hoff v⟩

/-- `ASM_PAYLOAD` outside the buffer (R41, R42; log 14). -/
theorem asmPayload_outside {s : State} (h : bufCap ≤ s.offset.toNat) (d : Byte) :
    asmPayload d s =
      { s with
        crcAcc := crcByte s.crcAcc d, crcOut := some (crcByte s.crcAcc d)
        offset := s.offset + 1, ended := false
        astate := if s.offset + 1 = s.length then .readCrcHi else s.astate } := by
  rw [asmPayload_eq, if_neg (not_lt.2 h)]

/-- Settles O38: offsets 254 and 255 are outside the buffer. -/
theorem payloadOutsideTheBufferStoresNothing : Obligations.PayloadOutsideTheBufferStoresNothing :=
  fun _ d hn hoff => exec_eq_next.2 ⟨hn, asmPayload_outside hoff d⟩

/-! ### `SAMPLE` and its operations -/

theorem exec_of_lt_two (i : Instr) {s : State} (hn : ¬ 2 ≤ s.cfg.n) :
    exec i s = .refused (.oversamplingBelowTwo s.cfg.n) := by
  rw [exec_eq_configured, configured, if_neg hn]

theorem andThen_exec (i : Instr) {s : State} (hn : 2 ≤ s.cfg.n) (k : State → Answer) :
    andThen (exec i s) k = k (effect i s) := by
  rw [exec_eq_next.2 ⟨hn, rfl⟩, andThen_next]

/-- Settles O7: with `N < 2` both sides are refused, the second at its first operation. With `N ≥ 2` the operations are
their effects, and `dec_cnt` decides the boundary on both sides. -/
theorem sampleComposesItsOperations : Obligations.SampleComposesItsOperations := by
  intro s v
  by_cases hn : 2 ≤ s.cfg.n
  · have hdec : 2 ≤ (decimate (thrUpdate v (beginStep s))).cfg.n := by simpa using hn
    rw [exec_eq_next.2 ⟨hn, rfl⟩, andThen_exec _ (s := beginStep s) hn, andThen_exec _ (by rwa [effect_cfg])]
    simp only [effect, andThen_exec _ hdec, sampleStep_eq_operations, decimate_boundary, thrUpdate_decCnt,
      beq_iff_eq]
    by_cases h : (beginStep s).decCnt = 1
    · rw [if_pos h, if_pos h, exec_eq_next.2 ⟨by exact hdec, effect_framerOperation rfl _⟩]
      simp [bitOut]
    · rw [if_neg h, if_neg h]
  · rw [exec_of_lt_two _ hn, exec_of_lt_two _ (s := beginStep s) hn, andThen_refused, beginStep_cfg]

/-! ### Two bytes as a sample -/

/-- With no byte held the two stream bytes are latched and sampled: `SAMPLE` of their value over the low one (R86). -/
theorem receiveSample_of_no_byte_held {s : State} (h : s.haveLo = false) (v : Word) :
    receiveSample v s = sampleStep v { s with loByte := v.extractLsb' 0 8 } := by
  simp [receiveSample, byteIn, sampleBytes, sampleOfBytes, h]

/-- With no byte held the first of two `BYTE_IN` steps latches, so the pair is `WIRE.SAMPLE` (R86). -/
theorem execAll_bytePair {s : State} (hn : 2 ≤ s.cfg.n) (h : s.haveLo = false) (v : Word) :
    execAll [.byteIn (v.extractLsb' 0 8), .byteIn (v.extractLsb' 8 8)] s = exec (.wireSample v) s := by
  have hlatch : beginStep (byteIn (v.extractLsb' 0 8) (beginStep s)) = byteIn (v.extractLsb' 0 8) (beginStep s) := by
    simp [byteIn, h, beginStep]
  rw [execAll_eq_foldl_effect _ hn, exec_eq_next.2 ⟨hn, rfl⟩]
  exact congrArg (fun u => Host.Outcome.next (byteIn (v.extractLsb' 8 8) u)) hlatch

theorem exec_wireSample_of_no_byte_held {s : State} (h : s.haveLo = false) (v : Word) :
    exec (.wireSample v) s = exec (.sample v) { s with loByte := v.extractLsb' 0 8 } := by
  rw [exec_eq_configured, exec_eq_configured]
  exact congrArg (configured s) (receiveSample_of_no_byte_held (s := beginStep s) h v)

/-- Settles O24: the byte pair is `WIRE.SAMPLE`, and that is `SAMPLE`, whose case off a boundary counts down. -/
theorem bytePairIsItsSample : Obligations.BytePairIsItsSample := by
  intro s v hn hlo
  have hwire := exec_wireSample_of_no_byte_held hlo v
  refine ⟨(execAll_bytePair hn hlo v).trans hwire, hwire, fun hdec => ?_⟩
  have hoff := nonBoundarySampleTouchesSlicerOnly { s with loByte := v.extractLsb' 0 8 } v hn hdec
  exact ⟨_, hwire.trans hoff, hlo, rfl⟩

end Sys2Proof.Machine
end

section
/-! `VERBOSE` gates the diagnostic events and nothing else: `silenced` commutes with every operation
(44_pipeline_step.md R137; 60_exceptions.md R147). -/

namespace Sys2Proof.Machine

/-! ### The operations that emit nothing themselves -/

theorem silenced_endIfEnded (s : State) : silenced (endIfEnded s) = endIfEnded (silenced s) := by
  cases h : s.ended with
  | true => rw [endIfEnded_of_ended h, endIfEnded_of_ended (s := silenced s) h]; rfl
  | false => rw [endIfEnded_of_not_ended h, endIfEnded_of_not_ended (s := silenced s) h]

theorem silenced_decimate (s : State) : silenced (decimate s) = decimate (silenced s) := by
  by_cases h : s.decCnt = 1
  · rw [decimate_of_one h, decimate_of_one (s := silenced s) h]; rfl
  · rw [decimate_of_ne_one h, decimate_of_ne_one (s := silenced s) h]; rfl

theorem silenced_asmPayload (d : Byte) (s : State) : silenced (asmPayload d s) = asmPayload d (silenced s) := by
  rw [asmPayload_eq, asmPayload_eq]
  rfl

/-! ### The operations that emit -/

/-- The one gate of R147: silencing drops the diagnostic `emit` has appended, and `emit` appends none to a silenced
state; a `PACKET` stays on both sides. -/
theorem silenced_emit (e : Event) (s : State) : silenced (emit e s) = emit e (silenced s) := by
  have hevents : (if s.cfg.verbose || e.isPacket then [e] else []).filter Event.isPacket =
      if false || e.isPacket then [e] else [] := by
    cases hpacket : e.isPacket <;> cases s.cfg.verbose <;> simp [hpacket]
  rw [emit_eq, emit_eq, silenced, List.filter_append, hevents]
  rfl

theorem silenced_asmLength (d : Byte) (s : State) : silenced (asmLength d s) = asmLength d (silenced s) := by
  by_cases h : maxLen < d.toNat
  · rw [asmLength, asmLength, if_pos h, if_pos h]; exact silenced_emit _ _
  · rw [asmLength, asmLength, if_neg h, if_neg h]; exact silenced_emit _ _

theorem silenced_asmCrcLo (d : Byte) (s : State) : silenced (asmCrcLo d s) = asmCrcLo d (silenced s) := by
  by_cases h : complementChecksum (checksumOfBytes s.rxCrc d) = s.crcAcc
  · rw [asmCrcLo, asmCrcLo, if_pos h, if_pos (by exact h)]; exact silenced_emit _ _
  · rw [asmCrcLo, asmCrcLo, if_neg h, if_neg (by exact h)]; exact silenced_emit _ _

theorem silenced_syncShift (b : Bit) (s : State) : silenced (syncShift b s) = syncShift b (silenced s) := by
  by_cases h : isSyncWord (shiftIntoSync s.syncReg b) = true
  · rw [syncShift, syncShift, if_pos h, if_pos (by exact h)]; exact silenced_emit _ _
  · rw [syncShift, syncShift, if_neg h, if_neg (by exact h)]; rfl

/-! ### The operations that call others -/

theorem silenced_deliverByte (d : Byte) (s : State) : silenced (deliverByte d s) = deliverByte d (silenced s) := by
  have ha : (silenced s).astate = s.astate := rfl
  unfold deliverByte
  rw [ha]
  cases s.astate with
  | awaitLength => exact silenced_asmLength d s
  | readPayload => exact silenced_asmPayload d s
  | readCrcHi => rfl
  | readCrcLo => exact silenced_asmCrcLo d s

theorem silenced_byteShift (b : Bit) (s : State) : silenced (byteShift b s) = byteShift b (silenced s) := by
  by_cases h : s.bitCnt = 1#4
  · rw [byteShift_last h, byteShift_last (s := silenced s) h, silenced_endIfEnded, silenced_deliverByte]; rfl
  · rw [byteShift_mid h, byteShift_mid (s := silenced s) h]; rfl

theorem silenced_receiveBit (b : Bit) (s : State) : silenced (receiveBit b s) = receiveBit b (silenced s) := by
  cases h : s.fstate with
  | searching => rw [receiveBit_searching h, receiveBit_searching (s := silenced s) h, silenced_syncShift]
  | synced => rw [receiveBit_synced h, receiveBit_synced (s := silenced s) h, silenced_byteShift]

theorem silenced_receiveBits (bs : List Bit) (s : State) :
    silenced (receiveBits bs s) = receiveBits bs (silenced s) := by
  induction bs generalizing s with
  | nil => rfl
  | cons b bs ih => rw [receiveBits_cons, receiveBits_cons, ih, silenced_receiveBit]

theorem silenced_sampleStep (v : Word) (s : State) : silenced (sampleStep v s) = sampleStep v (silenced s) := by
  by_cases h : s.decCnt = 1
  · rw [sampleStep_on h, sampleStep_on (s := silenced s) h, silenced_receiveBit]; rfl
  · rw [sampleStep_off h, sampleStep_off (s := silenced s) h]; rfl

theorem silenced_byteIn (b : Byte) (s : State) : silenced (byteIn b s) = byteIn b (silenced s) := by
  cases h : s.haveLo with
  | true => rw [byteIn, byteIn, if_pos h, if_pos (by exact h), silenced_sampleStep]; rfl
  | false => rw [byteIn, byteIn, if_neg (by simp [h]), if_neg (by simp [silenced, h])]; rfl

/-! ### Instructions and steps -/

theorem silenced_effect (i : Instr) (s : State) : silenced (effect i s) = effect i (silenced s) := by
  cases i with
  | reset | idle | thrUpdate | slice | sessionInit | asmCrcHi | crcUpdate | sessionEnd => rfl
  | decimate => exact silenced_decimate s
  | syncShift b => exact silenced_syncShift b s
  | byteShift b => exact silenced_byteShift b s
  | asmLength d => exact silenced_asmLength d s
  | asmPayload d => exact silenced_asmPayload d s
  | asmCrcLo d => exact silenced_asmCrcLo d s
  | sample v => exact silenced_sampleStep v (beginStep s)
  | byteIn b => exact silenced_byteIn b (beginStep s)
  | wireSyncWord | wireSyncWordInv | wireLen | wireLenOversize | wirePayloadByte | wireCrcHi | wireCrcLo =>
    exact silenced_receiveBits _ (beginStep s)
  | wireSample v =>
    exact (silenced_byteIn _ _).trans (congrArg (byteIn _) (silenced_byteIn _ (beginStep s)))

/-- The check of R141 reads `N`, which silencing leaves, so refusals agree too. -/
theorem mapNext_silenced_exec (i : Instr) (s : State) : mapNext silenced (exec i s) = exec i (silenced s) := by
  by_cases hn : 2 ≤ s.cfg.n
  · rw [exec_eq_next.2 ⟨hn, rfl⟩, exec_eq_next.2 ⟨by exact hn, rfl⟩, ← silenced_effect]; rfl
  · rw [exec_of_lt_two i hn, exec_of_lt_two i (s := silenced s) hn]; rfl

/-- Settles O47: silencing commutes with every instruction, and neither what is fetched nor the input taken sees it. -/
theorem verboseGatesDiagnosticsOnly : Obligations.VerboseGatesDiagnosticsOnly :=
  ⟨fun i s => (mapNext_silenced_exec i s).symm,
    fun s => (mapNext_silenced_exec (fetch s) (consumeInput s)).symm⟩

end Sys2Proof.Machine
end

section
/-! Errors and outputs: the configuration error and the refusal of `N < 2`, a step's one event, how a session's end and
its `end_code` go together, and the ports (60_exceptions.md R141 to R150; 10_state.md R31; 20_memory.md R43). -/

namespace Sys2Proof.Machine

/-! ### The configuration -/

/-- Settles O13: the host's start is decided by `cfg_ok`, and every instruction's one check is that of `N`. -/
theorem invalidConfigurationIsRefused : Obligations.InvalidConfigurationIsRefused := by
  refine ⟨fun rate verbose seed mode => ⟨fun hbad => ?_, fun hok => ?_⟩, fun i s hn => ?_⟩
  · exact hostStart_of_not_cfgOk hbad verbose seed mode
  · exact ⟨hostStart_of_cfgOk hok verbose seed mode, ((cfgOk_iff rate).1 hok).2⟩
  · exact exec_of_lt_two i (not_le.2 hn)

/-! ### One event a step -/

/-- `SAMPLE` appends at most one event: it hands at most one bit to the framer (R130, R149). -/
theorem sampleStep_events (v : Word) (s : State) :
    ∃ l, (sampleStep v s).events = s.events ++ l ∧ l.length ≤ 1 := by
  by_cases h : s.decCnt = 1
  · rw [sampleStep_on h]
    exact receiveBit_events _ _
  · rw [sampleStep_off h]
    exact ⟨[], (List.append_nil _).symm, Nat.zero_le 1⟩

/-- `BYTE_IN` appends at most one event: it latches, or samples (R86, R149). -/
theorem byteIn_events (b : Byte) (s : State) : ∃ l, (byteIn b s).events = s.events ++ l ∧ l.length ≤ 1 := by
  rcases byteIn_cases b s with ⟨_, e⟩ | ⟨_, e⟩ <;> rw [e]
  · exact ⟨[], (List.append_nil _).symm, Nat.zero_le 1⟩
  · exact sampleStep_events _ { s with haveLo := false }

/-- Settles O44: a step begins with no event, and each of its four kinds appends at most one. -/
theorem atMostOneEventPerStep : Obligations.AtMostOneEventPerStep := by
  intro i s t hkind hnext
  obtain ⟨_, rfl⟩ := exec_eq_next.1 hnext
  have hone : ∃ l, (effect i s).events = (beginStep s).events ++ l ∧ l.length ≤ 1 := by
    cases i with
    | reset | idle => exact ⟨[], rfl, Nat.zero_le 1⟩
    | sample v => exact sampleStep_events v (beginStep s)
    | byteIn b => exact byteIn_events b (beginStep s)
    | _ => cases hkind
  obtain ⟨l, hl, hlen⟩ := hone
  rwa [hl, beginStep_events, List.nil_append]

/-! ### The session's end -/

/-- The end codes a byte can give in the sub-state `a`: the length byte is oversized, or the checksum's low byte brings
the verdict (R150). -/
def CodeOf (a : AState) (c : EndCode) : Prop :=
  a = .awaitLength ∧ c = .rejectedOversize ∨ a = .readCrcLo ∧ (c = .accepted ∨ c = .rejectedCrc)

theorem CodeOf.ne_none {a : AState} {c : EndCode} (h : CodeOf a c) : c ≠ .none := by
  rcases h with ⟨_, rfl⟩ | ⟨_, rfl | rfl⟩ <;> exact EndCode.noConfusion

theorem asmPayload_endCode (d : Byte) (s : State) : (asmPayload d s).endCode = s.endCode := by
  rw [asmPayload_eq]

/-- `BYTE` tells its caller `ended` exactly when it reports an `end_code`, and which (R113, R150). -/
theorem deliverByte_ended_cases (d : Byte) (s : State) :
    ((deliverByte d s).ended = false ∧ (deliverByte d s).endCode = s.endCode) ∨
    ((deliverByte d s).ended = true ∧ CodeOf s.astate (deliverByte d s).endCode) := by
  rcases deliverByte_cases d s with ⟨ha, e⟩ | ⟨_, e⟩ | ⟨_, e⟩ | ⟨ha, e⟩ <;> rw [e]
  · rcases asmLength_cases d s with ⟨_, e⟩ | ⟨_, e⟩ <;> rw [e]
    · exact .inl ⟨rfl, rfl⟩
    · exact .inr ⟨rfl, .inl ⟨ha, rfl⟩⟩
  · exact .inl ⟨asmPayload_ended d s, asmPayload_endCode d s⟩
  · exact .inl ⟨asmCrcHi_ended d s, asmCrcHi_endCode d s⟩
  · exact .inr ⟨asmCrcLo_ended d s, .inr ⟨ha, asmCrcLo_endCode d s⟩⟩

/-- From `s` to `t` no session ends and no `end_code` is reported (R106, R150). -/
def NoSessionEnds (s t : State) : Prop :=
  ¬ (s.fstate = .synced ∧ t.fstate = .searching) ∧ t.endCode = s.endCode

/-- From `s` to `t` a session ends on a byte's last bit, with a code of that byte (R106, R150). -/
def SessionEnds (s t : State) : Prop :=
  s.fstate = .synced ∧ s.bitCnt = 1#4 ∧ t.fstate = .searching ∧ t.bitCnt = 8#4 ∧ CodeOf s.astate t.endCode

theorem noSessionEnds_of_fstate_eq {s t : State} (hf : t.fstate = s.fstate) (hcode : t.endCode = s.endCode) :
    NoSessionEnds s t :=
  ⟨fun ⟨hsynced, hsearching⟩ => absurd (hsynced.symm.trans (hf.symm.trans hsearching)) (by decide), hcode⟩

/-- `BYTE` and the `SESSION_END` it asks for: the session goes on, or it ends with a code of the byte (R104, R113). -/
theorem endIfEnded_deliverByte_session_cases (d : Byte) (s : State) :
    NoSessionEnds s (endIfEnded (deliverByte d s)) ∨
    ((endIfEnded (deliverByte d s)).fstate = .searching ∧ (endIfEnded (deliverByte d s)).bitCnt = s.bitCnt ∧
      CodeOf s.astate (endIfEnded (deliverByte d s)).endCode) := by
  obtain ⟨_, _, _, hcnt, hstate⟩ := deliverByte_frame d s
  rcases deliverByte_ended_cases d s with ⟨hended, hcode⟩ | ⟨hended, hcode⟩
  · rw [endIfEnded_of_not_ended hended]
    exact .inl (noSessionEnds_of_fstate_eq hstate hcode)
  · rw [endIfEnded_of_ended hended]
    exact .inr ⟨rfl, hcnt, hcode⟩

theorem byteShift_session_cases (b : Bit) {s : State} (hf : s.fstate = .synced) :
    NoSessionEnds s (byteShift b s) ∨ SessionEnds s (byteShift b s) := by
  by_cases h : s.bitCnt = 1#4
  · rw [byteShift_last h]
    rcases endIfEnded_deliverByte_session_cases (shiftIntoByte s.byteAcc b)
      { s with byteAcc := shiftIntoByte s.byteAcc b, bitCnt := 8#4 } with hno | ⟨hsearching, hcnt, hcode⟩
    · exact .inl hno
    · exact .inr ⟨hf, h, hsearching, hcnt, hcode⟩
  · rw [byteShift_mid h]
    exact .inl (noSessionEnds_of_fstate_eq rfl rfl)

theorem receiveBit_session_cases (b : Bit) (s : State) :
    NoSessionEnds s (receiveBit b s) ∨ SessionEnds s (receiveBit b s) := by
  cases hf : s.fstate with
  | searching =>
    rw [receiveBit_searching hf]
    refine .inl ⟨fun ⟨hsynced, _⟩ => absurd (hf.symm.trans hsynced) (by decide), ?_⟩
    rcases syncShift_cases b s with ⟨_, e⟩ | ⟨_, e⟩ <;> rw [e]
  | synced =>
    rw [receiveBit_synced hf]
    exact byteShift_session_cases b hf

/-- A sample step ends a session on a bit boundary only (R130). -/
theorem sampleStep_session_cases (v : Word) (s : State) :
    NoSessionEnds s (sampleStep v s) ∨ (s.decCnt = 1 ∧ SessionEnds s (sampleStep v s)) := by
  by_cases h : s.decCnt = 1
  · rw [sampleStep_on h]
    generalize hu : State.mk .. = u
    have hbit := receiveBit_session_cases (slicedBit v (nextThreshold s.cfg v s.threshold)) u
    subst hu
    exact hbit.imp (fun hno => hno) fun hend => ⟨h, hend⟩
  · rw [sampleStep_off h]
    exact .inl (noSessionEnds_of_fstate_eq rfl rfl)

theorem dispatchWord_eq_crcLo_iff (s : State) :
    dispatchWord false true s = 0b0111111#7 ↔
      s.decCnt = 1 ∧ s.fstate = .synced ∧ s.bitCnt = 1#4 ∧ s.astate = .readCrcLo :=
  dispatchWord_eq_iff s .readCrcLo

/-- Settles O45: the step begins with `end_code` NONE, so one is reported exactly where a session ends; the byte that
ends it is the dispatch word's. -/
theorem sessionEndsExactlyWithAnEndCode : Obligations.SessionEndsExactlyWithAnEndCode := by
  intro s t v hnext
  obtain ⟨_, rfl⟩ := exec_eq_next.1 hnext
  rw [dispatchWord_eq_length_iff, dispatchWord_eq_crcLo_iff]
  rcases sampleStep_session_cases v (beginStep s) with ⟨hno, hnone⟩ | ⟨hon, hsynced, hlast, hsearching, hcnt, hcode⟩
  · exact ⟨⟨fun hend => absurd hend hno, fun hne => absurd hnone hne⟩, fun hne => absurd hnone hne⟩
  · refine ⟨⟨fun _ => hcode.ne_none, fun _ => ⟨hsynced, hsearching⟩⟩, fun _ => ⟨hcnt, ?_⟩⟩
    exact hcode.imp (And.imp_left fun ha => ⟨hon, hsynced, hlast, ha⟩)
      (And.imp_left fun ha => ⟨hon, hsynced, hlast, ha⟩)

/-! ### `OversizedLength` -/

/-- Settles O36: the eighth bit delivers 255 to `ASM_LENGTH`, which ends the session. -/
theorem oversizedLengthEndsTheSession : Obligations.OversizedLengthEndsTheSession := by
  intro s b hn ha hlast hacc
  refine exec_eq_next.2 ⟨hn, (byteShift_last hlast b).trans ?_⟩
  rw [shiftIntoByte, hacc, deliverByte, ha]
  simp only
  rw [asmLength_oversize, endIfEnded_of_ended rfl]

/-! ### The ports -/

theorem lastEvent_of_nil {s : State} (h : s.events = []) : lastEvent s = none := by
  rw [lastEvent, h, List.getLast?_nil]

theorem lastEvent_of_singleton {s : State} {e : Event} (h : s.events = [e]) : lastEvent s = some e := by
  rw [lastEvent, h, List.getLast?_singleton]

/-- A `PACKET` shows on the packet ports alone (R146). -/
theorem ports_of_packet {s : State} {len : Byte} {payload : List Byte} (h : s.events = [.packet len payload]) :
    pktValid s = true ∧ pktLen s = len ∧ diagValid s = false ∧ diagCode s = 0#3 ∧ diagA s = 0#16 ∧ diagB s = 0#16 := by
  rw [pktValid, pktLen, diagValid, diagCode, diagA, diagB, lastEvent_of_singleton h]
  exact ⟨rfl, rfl, rfl, rfl, rfl, rfl⟩

/-- A diagnostic shows on the diagnostic ports alone (R146). -/
theorem ports_of_diagnostic {s : State} {e : Event} (h : s.events = [e]) (hdiag : e.isPacket = false) :
    pktValid s = false ∧ pktLen s = 0#8 ∧ diagValid s = true ∧ diagCode s = e.diagCode ∧ diagA s = e.diagA ∧
      diagB s = e.diagB := by
  rw [pktValid, pktLen, diagValid, diagCode, diagA, diagB, lastEvent_of_singleton h]
  cases e with
  | packet => cases hdiag
  | sync | length | oversize | crcMismatch => exact ⟨rfl, rfl, rfl, rfl, rfl, rfl⟩

/-- With no event no event port is valid (R146). -/
theorem ports_of_no_event {s : State} (h : s.events = []) :
    pktValid s = false ∧ pktLen s = 0#8 ∧ diagValid s = false ∧ diagCode s = 0#3 ∧ diagA s = 0#16 ∧
      diagB s = 0#16 := by
  rw [pktValid, pktLen, diagValid, diagCode, diagA, diagB, lastEvent_of_nil h]
  exact ⟨rfl, rfl, rfl, rfl, rfl, rfl⟩

theorem synced_iff (s : State) : synced s = true ↔ s.fstate = .synced := beq_iff_eq

theorem tap_of_some {s : State} {b : Bit} (h : s.bitTap = some b) : bitValid s = true ∧ bitOut s = b := by
  rw [bitValid, bitOut, h]
  exact ⟨rfl, rfl⟩

theorem tap_of_none {s : State} (h : s.bitTap = none) : bitValid s = false ∧ bitOut s = 0#1 := by
  rw [bitValid, bitOut, h]
  exact ⟨rfl, rfl⟩

theorem pktRdData_inside (s : State) {a : Byte} (h : a.toNat < bufCap) : pktRdData s a = bufRead s a.toNat :=
  if_pos h

theorem pktRdData_outside (s : State) {a : Byte} (h : bufCap ≤ a.toNat) : pktRdData s a = 0x00#8 :=
  if_neg (not_lt.2 h)

/-- Settles O48: the ports per kind of event, the codes, the level and the tap, and the read port around 254. -/
theorem portsShowEventAndBuffer : Obligations.PortsShowEventAndBuffer := by
  refine ⟨fun s len payload h => ports_of_packet h, fun s v h => ports_of_diagnostic h rfl,
    fun s len h => ports_of_diagnostic h rfl, fun s len h => ports_of_diagnostic h rfl,
    fun s received computed h => ports_of_diagnostic h rfl, fun s h => ports_of_no_event h, fun s => ?_, synced_iff,
    fun s b h => tap_of_some h, fun s h => tap_of_none h,
    fun s a h => pktRdData_inside s (Nat.lt_succ_of_le h), fun s a h => pktRdData_outside s ?_⟩
  · cases s.endCode <;> rfl
  · rcases h with rfl | rfl <;> decide

end Sys2Proof.Machine
end
